-- ==== Sys2Proof/Word.lean ====
section
/-! DEFINITION. The unit's word types: the 32-bit bus word and the 256-bit register. -/

namespace Sys2Proof

/-- One bus word: "Every access is exactly 32 bits wide" (20_memory.md R44). -/
abbrev Word32 := BitVec 32

/-- One data register: `W = 256` bits (00_scope.md R11). -/
abbrev Word256 := BitVec 256

end Sys2Proof
end

