-- ==== Sys2Proof/Syntax.lean ====
section
/-! DEFINITION. The eight commands of the opcode map, and the six errors that can abandon a command. -/

namespace Sys2Proof

/-- The commands of 30_encoding.md R64, one constructor for each row of spec/opcode_table.json. -/
inductive Instr where
  /-- no operation (40_command.md R87) -/
  | nop
  /-- `R <- addp(A, B)` (41_field.md R105) -/
  | fadd
  /-- `R <- mulp(A, B)` (41_field.md R106) -/
  | fmul
  /-- `R <- pow17(A)` (41_field.md R107) -/
  | pow17
  /-- `R <- round(A, B, i)`, with the round index `IDX = i` (42_permutation.md R123) -/
  | round (idx : BitVec 8)
  /-- `R <- encrypt(B, A)` (42_permutation.md R124) -/
  | encrypt
  /-- `S <- 0` (43_hash.md R142) -/
  | hinit
  /-- `S <- absorb(S, A); R <- S` (43_hash.md R143) -/
  | habsorb
deriving DecidableEq, Repr

/-- Why a `CMD` write is abandoned (60_exceptions.md R162), in the order of the codes 1 to 6. -/
inductive ErrorCode where
  /-- code 1: `CMD` written while `STATUS.BUSY = 1` -/
  | busy
  /-- code 2: `OPCODE` in 0x08 to 0xFF -/
  | illegalOp
  /-- code 3: `RSVD != 0`, or `IDX != 0` with another opcode than `round`'s -/
  | rsvdField
  /-- code 4: `round` with `IDX` in 61 to 255 -/
  | roundIndex
  /-- code 5: the command reads `A` and `A >= P` -/
  | aRange
  /-- code 6: the command reads `B` and `B >= P` -/
  | bRange
deriving DecidableEq, Repr

end Sys2Proof
end

