-- ==== Sys2Proof/WellFormed.lean ====
section
/-! DEFINITION. Which commands the encoding admits. -/

namespace Sys2Proof

/-- 30_encoding.md R62: a round index is legal from 0 to 60. No other command carries an operand. -/
def Instr.wellFormed : Instr → Bool
  | .round idx => decide (idx.toNat ≤ 60)
  | .nop | .fadd | .fmul | .pow17 | .encrypt | .hinit | .habsorb => true

/-- The check as a proposition. -/
abbrev Instr.WellFormed (i : Instr) : Prop := i.wellFormed = true

end Sys2Proof
end

