-- ==== Sys2Proof/Decode.lean ====
section
/-! DEFINITION. Decoding of command words (total, rejecting by error code) and the encoder, both from
30_encoding.md sections 1 and 2. -/

namespace Sys2Proof

/-- `OPCODE = c[7:0]` (30_encoding.md R60, R61). -/
def opcodeField (c : Word32) : BitVec 8 := c.extractLsb' 0 8

/-- `IDX = c[15:8]` (30_encoding.md R60, R62). -/
def idxField (c : Word32) : BitVec 8 := c.extractLsb' 8 8

/-- `RSVD = c[31:16]` (30_encoding.md R60, R63). -/
def rsvdField (c : Word32) : BitVec 16 := c.extractLsb' 16 16

/-- The opcode of each command (30_encoding.md R64). -/
def opcodeOf : Instr → BitVec 8
  | .nop => 0x00
  | .fadd => 0x01
  | .fmul => 0x02
  | .pow17 => 0x03
  | .round _ => 0x04
  | .encrypt => 0x05
  | .hinit => 0x06
  | .habsorb => 0x07

/-- The command an opcode names, with the round index the word carries (30_encoding.md R64); none for
0x08 to 0xFF (R61). -/
def commandOf (op idx : BitVec 8) : Option Instr :=
  match op.toNat with
  | 0 => some .nop
  | 1 => some .fadd
  | 2 => some .fmul
  | 3 => some .pow17
  | 4 => some (.round idx)
  | 5 => some .encrypt
  | 6 => some .hinit
  | 7 => some .habsorb
  | _ => none

/-- `decode(c)` of 30_encoding.md R71: the first test that applies names the error. -/
def decode (c : Word32) : Except ErrorCode Instr :=
  match commandOf (opcodeField c) (idxField c) with
  | none => .error .illegalOp
  | some i =>
    if rsvdField c ≠ 0 ∨ (opcodeField c ≠ 0x04 ∧ idxField c ≠ 0) then .error .rsvdField
    else if opcodeField c = 0x04 ∧ 60 < (idxField c).toNat then .error .roundIndex
    else .ok i

/-- The `IDX` field of a command: the round index of `round`, else 0 (30_encoding.md R62). -/
def idxOf : Instr → BitVec 8
  | .round idx => idx
  | .nop | .fadd | .fmul | .pow17 | .encrypt | .hinit | .habsorb => 0

/-- The command word: `OPCODE | (IDX << 8)`, with `RSVD = 0` (30_encoding.md R60, R64). -/
def encode (i : Instr) : Word32 := (opcodeOf i).setWidth 32 ||| ((idxOf i).setWidth 32 <<< 8)

/-- The word of a table row as the bus carries it: bit 0 is the least significant bit, and the bits
above `nbits` are 0. -/
def tableWord (nbits w : Nat) : Word32 := BitVec.ofNat 32 (w % 2 ^ nbits)

/-- The command the decoder reads from a word numbered as spec/opcode_table.json numbers it. -/
def decodeTableWord (nbits w : Nat) : Option Instr :=
  match decode (tableWord nbits w) with
  | .ok i => some i
  | .error _ => none

end Sys2Proof
end

