-- ==== Sys2Proof/Config.lean ====
section
/-! DEFINITION. What is fixed when the unit is built: the modulus `P`, the round constants `RC` and the
block's base address (00_scope.md R9, R10, R12), all open parameters. -/

namespace Sys2Proof

/-- The configuration ROM and the block's place on the bus (10_state.md R35; 00_scope.md R12). -/
structure Build where
  /-- `P`, the modulus (00_scope.md R9). -/
  modulus : Word256
  /-- `RC[0], ..., RC[60]`, the round constants, in order (00_scope.md R10). -/
  constants : Vector Word256 61
  /-- `BASE`, the byte address of the register block (20_memory.md R40). -/
  base : Nat
deriving DecidableEq, Repr

/-- `P` as the integer the field rules compute with. -/
abbrev Build.P (c : Build) : Nat := c.modulus.toNat

/-- `RC[i]` as an integer. -/
abbrev Build.RC (c : Build) (i : Fin 61) : Nat := c.constants[i].toNat

/-- The constraints every admissible configuration meets: 00_scope.md R9 (i) to (iii) (`P < 2^256` is
the width of `modulus`), R10, and R12's alignment of `BASE`. -/
structure Build.Legal (c : Build) : Prop where
  prime : c.P.Prime
  three_le : 3 ≤ c.P
  coprime : Nat.gcd 17 (c.P - 1) = 1
  constants_lt : ∀ i : Fin 61, c.RC i < c.P
  base_aligned : c.base % 0x100 = 0

/-- The smallest configuration that meets the constraints. It only shows that one exists. -/
def Build.smallest : Build := ⟨3, Vector.replicate 61 0, 0⟩

theorem Build.smallest_legal : Build.smallest.Legal where
  prime := (by norm_num : Nat.Prime 3)
  three_le := by decide
  coprime := by decide
  constants_lt := by decide
  base_aligned := rfl

/-- A configuration with the proof that it is one: a configuration that breaks a constraint cannot be
given (00_scope.md R9, R10: "A model should refuse a configuration that breaks" them). The field
defaults only let Lean see that the type is inhabited. -/
structure LegalBuild where
  build : Build := Build.smallest
  legal : build.Legal := by exact Build.smallest_legal
deriving Inhabited

/-- A configuration is taken with the proof of its legality, or refused (00_scope.md R9, R10). -/
def Build.accept (c : Build) : Option LegalBuild :=
  if h : c.P.Prime ∧ 3 ≤ c.P ∧ Nat.gcd 17 (c.P - 1) = 1 ∧ (∀ i, c.RC i < c.P) ∧ c.base % 0x100 = 0 then
    some { build := c, legal := ⟨h.1, h.2.1, h.2.2.1, h.2.2.2.1, h.2.2.2.2⟩ }
  else none

/-- The configuration of the unit that `State.reset` describes: a FREE VALUE (log 1). Only its legality
can be used. -/
opaque Config.unit : LegalBuild

end Sys2Proof
end

