-- ==== Sys2Proof/Machine/State.lean ====
section
/-! DEFINITION. The unit's state (10_state.md), what reaches it (40_command.md R80), the reasons a step
stops, and the state after reset. -/

namespace Sys2Proof.Machine

/-- A command that has been latched: every command but `nop`, which never is (40_command.md R83). The
round index is legal, because decoding let it through (30_encoding.md R71; log 12). -/
inductive PendOp where
  | fadd
  | fmul
  | pow17
  | round (i : Fin 61)
  | encrypt
  | hinit
  | habsorb
deriving DecidableEq, Repr

/-- The pending record `{op, idx, a, b, k}` (10_state.md R36): the operation, and the values of `A`, `B`
and `S` at issue. -/
structure Pending where
  op : PendOp
  a : Word256
  b : Word256
  k : Word256
deriving DecidableEq, Repr

/-- One host access (20_memory.md R44, R45): the byte offset from `BASE`, the width in bytes and, for a
write, the value. The unit serves 4-byte accesses only; a write of another width is refused whatever
its value, so the value is kept as one bus word (log 7). -/
inductive Access where
  | read (off bytes : Nat)
  | write (off bytes : Nat) (v : Word32)
deriving DecidableEq, Repr

/-- What reaches the unit next: the three kinds of step of 40_command.md R80. -/
inductive Event where
  /-- a host access arrives (R80 (a)) -/
  | access (a : Access)
  /-- the unit's engine takes a turn (R80 (b)): a completion if a command is pending -/
  | engine
  /-- reset (R80 (c)), with the access that arrives while it is asserted, if any
  (70_reset_and_hazards.md R183) -/
  | reset (during : Option Access)
deriving DecidableEq, Repr

/-- The registers of the block, as 20_memory.md R41 lays them out; `k` is the word of a 256-bit register. -/
inductive Reg where
  | info
  | cmd
  | status
  | a (k : Fin 8)
  | b (k : Fin 8)
  | r (k : Fin 8)
  | s (k : Fin 8)
  | modulus (k : Fin 8)
  | reserved
deriving DecidableEq, Repr

/-- The state of the unit (10_state.md R20, R36), its configuration, and the host's side of the bus. -/
structure State where
  /-- the configuration: no step changes it (20_memory.md R57; log 1) -/
  build : Build
  /-- `A`, the first operand (10_state.md R21) -/
  a : Word256
  /-- `B`, the second operand or key (10_state.md R22) -/
  b : Word256
  /-- `R`, the result (10_state.md R23) -/
  r : Word256
  /-- `S`, the chaining state (10_state.md R24) -/
  s : Word256
  /-- `STATUS.ERR` (10_state.md R28) -/
  err : Bool
  /-- `STATUS.ERRCODE` (10_state.md R29) -/
  errCode : BitVec 4
  /-- the pending record; `STATUS.BUSY = 1` exactly while it is present (10_state.md R36; log 2) -/
  pend : Option Pending
  /-- the model's own: what reaches the unit next, the head first (log 3) -/
  inbox : List Event
  /-- the model's own: the values host reads have returned, the newest first (log 5) -/
  returned : List Word32
deriving DecidableEq, Repr

/-- Reasons to stop with a fault: none. The spec's errors are recorded in `STATUS` and the unit goes on
(40_command.md R89, 60_exceptions.md R167), and "No item here is `stuck`"
(93_implementation_defined.md; log 20). -/
inductive Fault where
deriving DecidableEq, Repr

/-- Reasons to refuse a step: it has no meaning in the spec. -/
inductive Refusal where
  /-- A command whose meaning is not written; no arm uses it. Safe. -/
  | notModelled (mnemonic : String)
  /-- Raised by a host access at an offset outside the 256-byte block (20_memory.md R40,
  93_implementation_defined.md U7). Safe: the unit has no transition for it. -/
  | accessOutsideBlock
  /-- Raised by a host access that is not 32 bits wide (20_memory.md R45). Safe. -/
  | accessWidth
  /-- Raised by a 32-bit host access at an offset that is not a multiple of 4 (20_memory.md R45). Safe. -/
  | accessMisaligned
  /-- Raised by a host access that arrives during reset (70_reset_and_hazards.md R183). Safe. -/
  | accessDuringReset
deriving DecidableEq, Repr

/-- How the event at the head of the inbox ends: settled at once, or a command word to issue. -/
inductive Turn where
  | settled (o : Host.Outcome State Fault Refusal)
  | command (c : Word32) (s : State)

/-- The state right after reset: 10_state.md R37. The configuration is a free legal one; nothing waits
to reach the unit and no read has been answered (log 17). -/
def State.reset : State where
  build := Config.unit.build
  a := 0
  b := 0
  r := 0
  s := 0
  err := false
  errCode := 0
  pend := none
  inbox := []
  returned := []

end Sys2Proof.Machine
end

