-- ==== Sys2Proof/Machine/Flags.lean ====
section
/-! DEFINITION. The fields of `STATUS` (10_state.md R26 to R29) and the error numbers. -/

namespace Sys2Proof.Machine

/-- `STATUS.BUSY`: a command is pending (10_state.md R27, R36). -/
def State.busy (s : State) : Bool := s.pend.isSome

/-- The code `ERRCODE` records for an error (60_exceptions.md R162). -/
def errorNumber : ErrorCode → BitVec 4
  | .busy => 1
  | .illegalOp => 2
  | .rsvdField => 3
  | .roundIndex => 4
  | .aRange => 5
  | .bRange => 6

/-- `STATUS` as it reads: `{24'b0, ERRCODE, 2'b0, ERR, BUSY}` (20_memory.md R41, 40_command.md R81). -/
def statusWord (s : State) : Word32 :=
  0#24 ++ s.errCode ++ 0#2 ++ BitVec.ofBool s.err ++ BitVec.ofBool s.busy

end Sys2Proof.Machine
end

