-- ==== Sys2Proof/Machine/Operands.lean ====
section
/-! DEFINITION. Words of 256-bit registers (20_memory.md R42), the register at an offset (R41), the
operands a command reads and their range checks (40_command.md R83). -/

namespace Sys2Proof.Machine

/-- `V.w[k] = V[32k+31:32k]` (00_scope.md R14). -/
def getWord (v : Word256) (k : Fin 8) : Word32 := v.extractLsb' (32 * k.val) 32

/-- `V[32k+31:32k] <- w`: the other seven words stay (20_memory.md R47). -/
def setWord (v : Word256) (k : Fin 8) (w : Word32) : Word256 :=
  (v &&& ~~~((0xFFFFFFFF#256) <<< (32 * k.val))) ||| (w.zeroExtend 256 <<< (32 * k.val))

/-- The word number of an aligned offset inside its 32-byte register. -/
def wordIndex (off : Nat) : Fin 8 := ⟨off / 4 % 8, Nat.mod_lt _ (by decide)⟩

/-- The address map of the block (20_memory.md R41), for an aligned offset below 0x100. -/
def regAt (off : Nat) : Reg :=
  match off / 32 with
  | 0 =>
    match off with
    | 0x00 => .info
    | 0x04 => .cmd
    | 0x08 => .status
    | _ => .reserved
  | 1 => .a (wordIndex off)
  | 2 => .b (wordIndex off)
  | 3 => .r (wordIndex off)
  | 4 => .s (wordIndex off)
  | 5 => .modulus (wordIndex off)
  | _ => .reserved

/-- `readsA(op)` (40_command.md R83; 30_encoding.md R64). -/
def readsA : PendOp → Bool
  | .fadd | .fmul | .pow17 | .round _ | .encrypt | .habsorb => true
  | .hinit => false

/-- `readsB(op)` (40_command.md R83; 30_encoding.md R64). -/
def readsB : PendOp → Bool
  | .fadd | .fmul | .round _ | .encrypt => true
  | .pow17 | .hinit | .habsorb => false

/-- The operand check of a command, `A` before `B`; the full 256-bit values are compared with `P`
(40_command.md R83, 60_exceptions.md R163). -/
def operandError (op : PendOp) (s : State) : Option ErrorCode :=
  if readsA op = true ∧ s.build.P ≤ s.a.toNat then some .aRange
  else if readsB op = true ∧ s.build.P ≤ s.b.toNat then some .bRange
  else none

end Sys2Proof.Machine
end

