-- ==== Sys2Proof/Machine/Ops.lean ====
section
/-! DEFINITION. The operations every command and access shares: register reads and writes (40_command.md
R81, R82), raising an error, issue and latching (R83, R84), the writes of a completion (R85) and reset
(70_reset_and_hazards.md R180). -/

namespace Sys2Proof.Machine

/-- `INFO`: 61 rounds in bits 7:0, exponent 17 in bits 15:8, 0 above (10_state.md R30). -/
def infoWord : Word32 := 0#16 ++ 17#8 ++ 61#8

/-- Host read of a register (40_command.md R81). -/
def readReg (s : State) : Reg → Word32
  | .info => infoWord
  | .cmd => 0
  | .status => statusWord s
  | .a k => getWord s.a k
  | .b k => getWord s.b k
  | .r k => getWord s.r k
  | .s k => getWord s.s k
  | .modulus k => getWord s.build.modulus k
  | .reserved => 0

/-- `raise Error(code)` (60_exceptions.md R161): the first code since `ERR` was last 0 is kept
(10_state.md R29), the command is abandoned and nothing else changes. The unit has no trap entry (R167);
this stands in its place. -/
def raiseError (e : ErrorCode) (s : State) : State :=
  if s.err then s else { s with err := true, errCode := errorNumber e }

/-- The error clear, the only "return" from an error (60_exceptions.md R168): a write `v` to `STATUS`
clears `ERR` and `ERRCODE` if `v[1] = 1`, else changes nothing (40_command.md R88). -/
def clearError (v : Word32) (s : State) : State :=
  if v[1] then { s with err := false, errCode := 0 } else s

/-- Host write of a register other than `CMD` (40_command.md R82). A write to `CMD` issues a command,
which `serveAccess` hands on. -/
def writeReg (v : Word32) (s : State) : Reg → State
  | .status => clearError v s
  | .a k => { s with a := setWord s.a k v }
  | .b k => { s with b := setWord s.b k v }
  | .info | .cmd | .r _ | .s _ | .modulus _ | .reserved => s

/-- `latch(op, i)` (40_command.md R84): record the operation and the operands as they stand. -/
def latch (op : PendOp) (s : State) : State :=
  { s with pend := some { op := op, a := s.a, b := s.b, k := s.s } }

/-- `issue` after decoding, for a command that latches (40_command.md R83): the busy check, the operand
checks, the latch. -/
def issue (op : PendOp) (s : State) : State :=
  if s.busy then raiseError .busy s
  else
    match operandError op s with
    | some e => raiseError e s
    | none => latch op s

/-- `issue` for a word that does not decode (40_command.md R83): the busy check comes first. -/
def rejectCommand (e : ErrorCode) (s : State) : State :=
  if s.busy then raiseError .busy s else raiseError e s

/-- A register takes the value of a field computation, a natural below `P` and so below `2^256`
(41_field.md R103). -/
def fieldWord (v : Nat) : Word256 := BitVec.ofNat 256 v

/-- The end of a completion that writes `R` (40_command.md R85). -/
def finishR (v : Nat) (s : State) : State := { s with r := fieldWord v, pend := none }

/-- The end of a completion that writes `S` only (40_command.md R85). -/
def finishS (v : Nat) (s : State) : State := { s with s := fieldWord v, pend := none }

/-- The end of a completion that writes `S` and `R` (40_command.md R85). -/
def finishSR (v : Nat) (s : State) : State :=
  { s with s := fieldWord v, r := fieldWord v, pend := none }

/-- Reset (70_reset_and_hazards.md R180, R181): a pending command is abandoned; the configuration is
unchanged. What waits to reach the unit and what reads have returned are the host's and stay (log 9). -/
def resetUnit (s : State) : State :=
  { s with a := 0, b := 0, r := 0, s := 0, err := false, errCode := 0, pend := none }

/-- The block's part of the platform's address decode (20_memory.md R40): the offset of a byte address
inside the 256 bytes at `BASE`. -/
def blockOffset (c : Build) (addr : Nat) : Option Nat :=
  if c.base ≤ addr ∧ addr < c.base + 0x100 then some (addr - c.base) else none

/-- The word a host read of the block at a byte address returns, for an aligned address
(20_memory.md R40, R41). -/
def memRead (s : State) (addr : Nat) : Option Word32 :=
  match blockOffset s.build addr with
  | some off => if off % 4 = 0 then some (readReg s (regAt off)) else none
  | none => none

/-- The byte at a byte address, where the platform numbers the bytes of a word: byte `i` of the word at
`off` holds bits `[8i+7:8i]` (20_memory.md R43). A view for claims; the unit serves no byte access. -/
def memByte (s : State) (addr : Nat) : Option (BitVec 8) :=
  match blockOffset s.build addr with
  | some off => some ((readReg s (regAt (off - off % 4))).extractLsb' (8 * (off % 4)) 8)
  | none => none

end Sys2Proof.Machine
end

