-- ==== Sys2Proof/Machine/Field.lean ====
section
/-! DEFINITION. Field arithmetic (41_field.md): the functions, and the issue and completion of `fadd`,
`fmul` and `pow17`. -/

namespace Sys2Proof.Machine

/-- `addp(a, b) = (a + b) mod P`, exact (41_field.md R100, R103). -/
def addp (p a b : Nat) : Nat := (a + b) % p

/-- `mulp(a, b) = (a * b) mod P`, exact (41_field.md R101, R103). -/
def mulp (p a b : Nat) : Nat := (a * b) % p

/-- The power-17 map: the five-multiplication chain (41_field.md R102). -/
def pow17 (p x : Nat) : Nat :=
  let r2 := mulp p x x
  let r4 := mulp p r2 r2
  let r8 := mulp p r4 r4
  let r16 := mulp p r8 r8
  mulp p r16 x

/-- `fadd`, at issue (41_field.md R105). -/
def execFadd (s : State) : Host.Outcome State Fault Refusal := .next (issue .fadd s)

/-- `fmul`, at issue (41_field.md R106). -/
def execFmul (s : State) : Host.Outcome State Fault Refusal := .next (issue .fmul s)

/-- `pow17`, at issue (41_field.md R107). -/
def execPow17 (s : State) : Host.Outcome State Fault Refusal := .next (issue .pow17 s)

/-- Completion of `fadd`: `R <- addp(a, b)` (41_field.md R105). -/
def completeFadd (q : Pending) (s : State) : State :=
  finishR (addp s.build.P q.a.toNat q.b.toNat) s

/-- Completion of `fmul`: `R <- mulp(a, b)` (41_field.md R106). -/
def completeFmul (q : Pending) (s : State) : State :=
  finishR (mulp s.build.P q.a.toNat q.b.toNat) s

/-- Completion of `pow17`: `R <- pow17(a)` (41_field.md R107). -/
def completePow17 (q : Pending) (s : State) : State :=
  finishR (pow17 s.build.P q.a.toNat) s

end Sys2Proof.Machine
end

