-- ==== Sys2Proof/Machine/Permutation.lean ====
section
/-! DEFINITION. The round function and the keyed permutation (42_permutation.md): the functions, and the
issue and completion of `round` and `encrypt`. -/

namespace Sys2Proof.Machine

/-- `round(x, k, i)`: key addition, round-constant addition (modular, not XOR: 90_conflicts.md C2), the
power-17 map (42_permutation.md R120). -/
def mimcRound (c : Build) (x k : Nat) (i : Fin 61) : Nat :=
  pow17 c.P (addp c.P (addp c.P x k) (c.RC i))

/-- The 61 rounds in order, keyed by `k`, before the final key addition (42_permutation.md R121). -/
def mimcRounds (c : Build) (k x : Nat) : Nat :=
  (List.finRange 61).foldl (fun acc i => mimcRound c acc k i) x

/-- `encrypt(k, x)`: 61 rounds, then the key is added once (42_permutation.md R121, R122). -/
def encrypt (c : Build) (k x : Nat) : Nat := addp c.P (mimcRounds c k x) k

/-- `round i`, at issue (42_permutation.md R123): after the busy check, an index above 60 is `Error(4)`
(30_encoding.md R71, 40_command.md R83). The decoder hands on legal indices only (log 13). -/
def execRound (idx : BitVec 8) (s : State) : Host.Outcome State Fault Refusal :=
  .next
    (if h : idx.toNat < 61 then issue (.round ⟨idx.toNat, h⟩) s
     else rejectCommand .roundIndex s)

/-- `encrypt`, at issue (42_permutation.md R124). -/
def execEncrypt (s : State) : Host.Outcome State Fault Refusal := .next (issue .encrypt s)

/-- Completion of `round i`: `R <- round(a, b, i)` (42_permutation.md R123). -/
def completeRound (i : Fin 61) (q : Pending) (s : State) : State :=
  finishR (mimcRound s.build q.a.toNat q.b.toNat i) s

/-- Completion of `encrypt`: `R <- encrypt(b, a)`, keyed by `B` (42_permutation.md R124). -/
def completeEncrypt (q : Pending) (s : State) : State :=
  finishR (encrypt s.build q.b.toNat q.a.toNat) s

end Sys2Proof.Machine
end

