-- ==== Sys2Proof/Machine/Hash.lean ====
section
/-! DEFINITION. The chaining state and the hash (43_hash.md): the functions, and the issue and completion
of `hinit` and `habsorb`. -/

namespace Sys2Proof.Machine

/-- `absorb(s, x)`: encrypt keyed by the state, then add the old state and the input (43_hash.md R140). -/
def absorb (c : Build) (s x : Nat) : Nat :=
  addp c.P (addp c.P (encrypt c s x) s) x

/-- `hash(seq)`: absorb each element in order from 0 (43_hash.md R141). -/
def hashSeq (c : Build) (xs : List Nat) : Nat := xs.foldl (absorb c) 0

/-- `hinit`, at issue (43_hash.md R142). -/
def execHinit (s : State) : Host.Outcome State Fault Refusal := .next (issue .hinit s)

/-- `habsorb`, at issue (43_hash.md R143). -/
def execHabsorb (s : State) : Host.Outcome State Fault Refusal := .next (issue .habsorb s)

/-- Completion of `hinit`: `S <- 0` (43_hash.md R142). -/
def completeHinit (s : State) : State := finishS 0 s

/-- Completion of `habsorb`: `t <- absorb(k, a); S <- t; R <- t` (43_hash.md R143). -/
def completeHabsorb (q : Pending) (s : State) : State :=
  finishSR (absorb s.build q.k.toNat q.a.toNat) s

end Sys2Proof.Machine
end

