-- ==== Sys2Proof/Machine/System.lean ====
section
/-! DEFINITION. The system command `nop` (40_command.md R87). -/

namespace Sys2Proof.Machine

/-- `nop`: `issue` runs its checks and returns without latching; written while busy it is `Error(1)`
(40_command.md R83, R87). -/
def execNop (s : State) : Host.Outcome State Fault Refusal :=
  .next (if s.busy then raiseError .busy s else s)

end Sys2Proof.Machine
end

