-- ==== Sys2Proof/Machine/Engine.lean ====
section
/-! DEFINITION. The completion of the pending command (40_command.md R85), the service of one host access
(R81, R82) and the choice of what happens next (R80). -/

namespace Sys2Proof.Machine

/-- `complete()` of 40_command.md R85 for a pending record. -/
def complete (q : Pending) (s : State) : State :=
  match q.op with
  | .fadd => completeFadd q s
  | .fmul => completeFmul q s
  | .pow17 => completePow17 q s
  | .round i => completeRound i q s
  | .encrypt => completeEncrypt q s
  | .hinit => completeHinit s
  | .habsorb => completeHabsorb q s

/-- A turn of the engine: the completion, enabled exactly while `BUSY = 1` (40_command.md R85). An idle
engine does nothing and the unit holds its registers (60_exceptions.md R175; log 4). -/
def engineTurn (s : State) : State :=
  match s.pend with
  | some q => complete q s
  | none => s

/-- The offset an access names. -/
def accessOff : Access → Nat
  | .read off _ => off
  | .write off _ _ => off

/-- The width of an access in bytes. -/
def accessBytes : Access → Nat
  | .read _ bytes => bytes
  | .write _ bytes _ => bytes

/-- Why the unit has no transition for an access (20_memory.md R40, R44, R45), if it has none. The order
of the three tests is the model's (log 7). -/
def accessRefusal (x : Access) : Option Refusal :=
  if 0x100 ≤ accessOff x then some .accessOutsideBlock
  else if accessBytes x ≠ 4 then some .accessWidth
  else if accessOff x % 4 ≠ 0 then some .accessMisaligned
  else none

/-- One host access (40_command.md R81, R82): a read returns a value and changes no register; a write
to `CMD` becomes a command to issue. -/
def serveAccess (x : Access) (s : State) : Turn :=
  match accessRefusal x with
  | some why => .settled (.refused why)
  | none =>
    match x with
    | .read off _ =>
      .settled (.next { s with returned := readReg s (regAt off) :: s.returned })
    | .write off _ v =>
      match regAt off with
      | .cmd => .command v s
      | reg => .settled (.next (writeReg v s reg))

/-- What the head of the inbox asks for (40_command.md R80). With nothing left in the inbox the engine
takes its turn, which is the weak fairness of R86 (log 23). -/
def nextTurn (s : State) : Turn :=
  match s.inbox with
  | [] => .settled (.next (engineTurn s))
  | .engine :: rest => .settled (.next (engineTurn { s with inbox := rest }))
  | .reset none :: rest => .settled (.next (resetUnit { s with inbox := rest }))
  | .reset (some _) :: _ => .settled (.refused .accessDuringReset)
  | .access x :: rest => serveAccess x { s with inbox := rest }

/-- A host write of a word to `CMD` arrives next (10_state.md R31). -/
def queueCommand (c : Word32) (s : State) : State :=
  { s with inbox := .access (.write 0x04 4 c) :: s.inbox }

end Sys2Proof.Machine
end

