-- ==== Sys2Proof/Machine/Dispatch.lean ====
section
/-! DEFINITION. The meaning of each command: one arm per constructor of Instr. -/

namespace Sys2Proof.Machine

def exec (i : Instr) (s : State) : Host.Outcome State Fault Refusal :=
  match i with
  | .nop => Sys2Proof.Machine.execNop s
  | .fadd => Sys2Proof.Machine.execFadd s
  | .fmul => Sys2Proof.Machine.execFmul s
  | .pow17 => Sys2Proof.Machine.execPow17 s
  | .round idx => Sys2Proof.Machine.execRound idx s
  | .encrypt => Sys2Proof.Machine.execEncrypt s
  | .hinit => Sys2Proof.Machine.execHinit s
  | .habsorb => Sys2Proof.Machine.execHabsorb s

end Sys2Proof.Machine
end

