-- ==== Sys2Proof/Machine/Step.lean ====
section
/-! DEFINITION. One step of the unit (40_command.md R80). -/

namespace Sys2Proof.Machine

/-- One step: serve the head of the inbox; a command word is decoded and its command issued, or its
error raised (40_command.md R83). -/
def step (s : State) : Host.Outcome State Fault Refusal :=
  match nextTurn s with
  | .settled o => o
  | .command c s' =>
    match decode c with
    | .ok i => exec i s'
    | .error e => .next (rejectCommand e s')

/-- The state with a table word about to be written to `CMD`: the unit fetches nothing, so the next
command is the word the host writes next (10_state.md R33; log 15). -/
def State.withFetchWord (s : State) (nbits w : Nat) : State :=
  queueCommand (tableWord nbits w) s

end Sys2Proof.Machine
end

