-- ==== Sys2Proof/Machine/HostAsm.lean ====
section
/-! DEFINITION. The host's side: the assembler syntax and its expansions (30_encoding.md R72, R73), how
the host reads a 256-bit value back, and the byte decoder outside the unit (70_reset_and_hazards.md
R187). The unit sees only the accesses. -/

namespace Sys2Proof.Machine

/-- `wr <off>, <v32>` (30_encoding.md R72). -/
def hostWrite (off : Nat) (v : Word32) : Event := .access (.write off 4 v)

/-- `rd <off>` (30_encoding.md R72). -/
def hostRead (off : Nat) : Event := .access (.read off 4)

/-- A machine command: one `CMD` write (30_encoding.md R72). -/
def hostCommand (i : Instr) : Event := hostWrite 0x04 (encode i)

/-- Eight writes of a 256-bit value from an offset up, word 0 first (30_encoding.md R73). -/
def writeWords (off : Nat) (v : Word256) : List Event :=
  (List.finRange 8).map fun k => hostWrite (off + 4 * k.val) (getWord v k)

/-- Eight reads from an offset up, word 0 first (30_encoding.md R73). -/
def readWords (off : Nat) : List Event :=
  (List.finRange 8).map fun k => hostRead (off + 4 * k.val)

/-- `wait` (30_encoding.md R73): the polling loop as the unit sees it, when `polls` reads of `STATUS`
find `BUSY = 1` before the completion and the next one finds 0. The completion may come after any
number of polls (70_reset_and_hazards.md R192). -/
def waitEvents (polls : Nat) : List Event :=
  List.replicate polls (hostRead 0x08) ++ [.engine, hostRead 0x08]

/-- A line of host assembler (30_encoding.md R72, R73). Where a line waits, `polls` says how many polls
find the unit busy (log 22). -/
inductive AsmLine where
  | wr (off : Nat) (v : Word32)
  | rd (off : Nat)
  | cmd (i : Instr)
  | ldA (v : Word256)
  | ldB (v : Word256)
  | wait (polls : Nat)
  | rdR
  | rdS
  | rdMod
  | clrErr
  | chkErr
  /-- `<cmd>.w` -/
  | cmdW (i : Instr) (polls : Nat)
  /-- `hash <x_1>, ..., <x_n>`: the polls after `hinit`, then each element with the polls after it -/
  | hash (first : Nat) (elements : List (Word256 × Nat))
deriving DecidableEq, Repr

/-- One element of `hash`: `ld.a x; habsorb.w` (30_encoding.md R73). -/
def absorbEvents (x : Word256 × Nat) : List Event :=
  writeWords 0x20 x.1 ++ [hostCommand .habsorb] ++ waitEvents x.2

/-- The accesses a line stands for, in arrival order (30_encoding.md R73). -/
def AsmLine.events : AsmLine → List Event
  | .wr off v => [hostWrite off v]
  | .rd off => [hostRead off]
  | .cmd i => [hostCommand i]
  | .ldA v => writeWords 0x20 v
  | .ldB v => writeWords 0x40 v
  | .wait polls => waitEvents polls
  | .rdR => readWords 0x60
  | .rdS => readWords 0x80
  | .rdMod => readWords 0xA0
  | .clrErr => [hostWrite 0x08 0x00000002]
  | .chkErr => [hostRead 0x08]
  | .cmdW i polls => [hostCommand i] ++ waitEvents polls
  | .hash first elements =>
    [hostCommand .hinit] ++ waitEvents first ++ (elements.map absorbEvents).flatten ++ readWords 0x80

/-- The mnemonic of a command, as the opcode map spells it (30_encoding.md R64). -/
def mnemonic : Instr → String
  | .nop => "nop"
  | .fadd => "fadd"
  | .fmul => "fmul"
  | .pow17 => "pow17"
  | .round _ => "round"
  | .encrypt => "encrypt"
  | .hinit => "hinit"
  | .habsorb => "habsorb"

/-- The operand of a command's line: the round index, in decimal (30_encoding.md R72). -/
def operandText : Instr → String
  | .round idx => " " ++ toString idx.toNat
  | .nop | .fadd | .fmul | .pow17 | .encrypt | .hinit | .habsorb => ""

/-- A line as it is written, numbers in decimal (30_encoding.md R72, R73). The polls are not part of the
text: they depend on the latency. -/
def AsmLine.text : AsmLine → String
  | .wr off v => "wr " ++ toString off ++ ", " ++ toString v.toNat
  | .rd off => "rd " ++ toString off
  | .cmd i => mnemonic i ++ operandText i
  | .ldA v => "ld.a " ++ toString v.toNat
  | .ldB v => "ld.b " ++ toString v.toNat
  | .wait _ => "wait"
  | .rdR => "rd.r"
  | .rdS => "rd.s"
  | .rdMod => "rd.mod"
  | .clrErr => "clr.err"
  | .chkErr => "chk.err"
  | .cmdW i _ => mnemonic i ++ ".w" ++ operandText i
  | .hash _ elements =>
    "hash " ++ ", ".intercalate (elements.map fun x => toString x.1.toNat)

/-- `chk.err` fails the host's program if `ERR` is 1 in the value read (30_encoding.md R73). -/
def errSeen (status : Word32) : Bool := status[1]

/-- The value of `rd.r`, `rd.s` or `rd.mod`: `sum w_k * 2^(32k)` of the eight values returned last
(30_encoding.md R73), which `State.returned` lists newest first. -/
def lastValueRead (s : State) : Nat :=
  (s.returned.take 8).foldl (fun acc w => acc * 2 ^ 32 + w.toNat) 0

/-- The byte decoder outside the unit: a big-endian integer, reduced modulo `P`
(70_reset_and_hazards.md R187). -/
def fieldOfBytes (p : Nat) (bytes : List (BitVec 8)) : Nat :=
  bytes.foldl (fun acc b => acc * 256 + b.toNat) 0 % p

end Sys2Proof.Machine
end

