-- ==== Sys2Proof/Machine/OpCount.lean ====
section
/-! DEFINITION. The field functions with every `mulp` and `addp` counted (42_permutation.md R122,
70_reset_and_hazards.md R194). Nothing in the machine depends on the counts. -/

namespace Sys2Proof.Machine

/-- How many field operations have been done. -/
structure Tally where
  mulps : Nat
  addps : Nat
deriving DecidableEq, Repr

/-- One counted `addp`. -/
def addpCounted (p a b : Nat) : StateM Tally Nat := fun n =>
  (addp p a b, { n with addps := n.addps + 1 })

/-- One counted `mulp`. -/
def mulpCounted (p a b : Nat) : StateM Tally Nat := fun n =>
  (mulp p a b, { n with mulps := n.mulps + 1 })

/-- The chain of 41_field.md R102, counted. -/
def pow17Counted (p x : Nat) : StateM Tally Nat := do
  let r2 ← mulpCounted p x x
  let r4 ← mulpCounted p r2 r2
  let r8 ← mulpCounted p r4 r4
  let r16 ← mulpCounted p r8 r8
  mulpCounted p r16 x

/-- One round (42_permutation.md R120), counted. -/
def mimcRoundCounted (c : Build) (x k : Nat) (i : Fin 61) : StateM Tally Nat := do
  let keyed ← addpCounted c.P x k
  let sum ← addpCounted c.P keyed (c.RC i)
  pow17Counted c.P sum

/-- The keyed permutation (42_permutation.md R121), counted. -/
def encryptCounted (c : Build) (k x : Nat) : StateM Tally Nat := do
  let acc ← (List.finRange 61).foldlM (fun acc i => mimcRoundCounted c acc k i) x
  addpCounted c.P acc k

/-- One chaining step (43_hash.md R140), counted. -/
def absorbCounted (c : Build) (s x : Nat) : StateM Tally Nat := do
  let e ← encryptCounted c s x
  let r ← addpCounted c.P e s
  addpCounted c.P r x

/-- The hash of a sequence (43_hash.md R141), counted. -/
def hashCounted (c : Build) (xs : List Nat) : StateM Tally Nat :=
  xs.foldlM (absorbCounted c) 0

end Sys2Proof.Machine
end

