-- ==== Sys2Proof/Safety.lean ====
section
/-! DEFINITION. The terms claims are stated in: the unit's invariant (10_state.md R25, R29, R36), runs in
which no error is hidden (60_exceptions.md R176), and a command run to its completion. -/

namespace Sys2Proof.Machine

/-- What holds of a pending record: the operands its command reads passed the issue checks, and the
latched chaining state is a field element (40_command.md R83, 60_exceptions.md R165). -/
structure Pending.Ok (c : Build) (q : Pending) : Prop where
  a_lt : readsA q.op = true → q.a.toNat < c.P
  b_lt : readsB q.op = true → q.b.toNat < c.P
  k_lt : q.k.toNat < c.P

/-- The invariant of the unit: a legal configuration (00_scope.md R9, R10), `R < P` and `S < P`
(10_state.md R25), `ERRCODE` 0 exactly while `ERR = 0` and never above 6 (R29), and a pending record that
passed the checks. -/
structure State.Inv (s : State) : Prop where
  legal : s.build.Legal
  r_lt : s.r.toNat < s.build.P
  s_lt : s.s.toNat < s.build.P
  code_zero : s.err = false ↔ s.errCode = 0
  code_le : s.errCode.toNat ≤ 6
  pend_ok : ∀ q, s.pend = some q → q.Ok s.build

/-- No command is pending: `STATUS.BUSY = 0`. -/
abbrev State.Idle (s : State) : Prop := s.pend = none

/-- The event is one the unit has a transition for: an aligned 32-bit access inside the block, a turn of
the engine, or a reset with no access (20_memory.md R45, R50; 70_reset_and_hazards.md R183). -/
def Servable : Event → Prop
  | .access x => accessBytes x = 4 ∧ accessOff x % 4 = 0 ∧ accessOff x < 0x100
  | .engine => True
  | .reset during => during = none

/-- The 68 legal command words, as 30_encoding.md R64 lists them. -/
def legalWords : List Word32 :=
  ([0x00000000, 0x00000001, 0x00000002, 0x00000003] : List Word32) ++
    (List.range 61).map (fun i => (0x00000004 : Word32) ||| (BitVec.ofNat 32 i <<< 8)) ++
    [0x00000005, 0x00000006, 0x00000007]

/-- The operation a command latches, if it latches one (40_command.md R83, R84). -/
def pendOpOf : Instr → Option PendOp
  | .nop => none
  | .fadd => some .fadd
  | .fmul => some .fmul
  | .pow17 => some .pow17
  | .round idx => if h : idx.toNat < 61 then some (.round ⟨idx.toNat, h⟩) else none
  | .encrypt => some .encrypt
  | .hinit => some .hinit
  | .habsorb => some .habsorb

/-- The cause of each error applies to a `CMD` write of `c` in state `s`, whichever other causes do too:
the cause column of 60_exceptions.md R162. -/
def CauseApplies (s : State) (c : Word32) : ErrorCode → Prop
  | .busy => s.pend ≠ none
  | .illegalOp => 7 < c.toNat % 0x100
  | .rsvdField =>
    c.toNat % 0x100 ≤ 7 ∧ (c.toNat / 0x10000 ≠ 0 ∨ (c.toNat % 0x100 ≠ 4 ∧ c.toNat / 0x100 % 0x100 ≠ 0))
  | .roundIndex => c.toNat % 0x100 = 4 ∧ 60 < c.toNat / 0x100 % 0x100
  | .aRange => c.toNat % 0x100 ∈ [1, 2, 3, 4, 5, 7] ∧ s.build.P ≤ s.a.toNat
  | .bRange => c.toNat % 0x100 ∈ [1, 2, 4, 5] ∧ s.build.P ≤ s.b.toNat

/-- An event that may set `ERR` back to 0: a write of `STATUS` with bit 1 set, or reset (10_state.md R28). -/
def hidesError : Event → Bool
  | .access (.write off _ v) => decide (off = 0x08) && v[1]
  | .reset _ => true
  | .access (.read _ _) => false
  | .engine => false

/-- `n` steps lead from `s` to `t`. -/
def Reaches (n : Nat) (s t : State) : Prop := Host.Core.run core n s = .next t

/-- A run a claim about results may speak of: `ERR = 0` at its end and nothing in its inbox clears `ERR`
(60_exceptions.md R176). -/
def CleanRun (n : Nat) (s t : State) : Prop :=
  Reaches n s t ∧ t.err = false ∧ ∀ e ∈ s.inbox, hidesError e = false

/-- A command issued and, with nothing in between, completed: what `<cmd>.w` does to the registers. -/
def runCommand (i : Instr) (s : State) : State :=
  match exec i s with
  | .next t => engineTurn t
  | .fault _ => s
  | .refused _ => s

/-- The host copies `R` to `A` (`rd.r`, `ld.a` of 42_permutation.md R125). -/
def copyRToA (s : State) : State := { s with a := s.r }

end Sys2Proof.Machine
end

