-- ==== Sys2Proof/Certificates/Slice0/Obligations.lean ====
section
/-! DEFINITION. The statements for the provers. -/

open Sys2Proof Sys2Proof.Machine

/-! ### Encoding and decoding -/

/-- 30_encoding.md R60 to R64, R71: a word decodes to a command exactly if the command is well formed and
the word is its encoding, so decoding an encoding gives the command back and no other word means it. -/
def Obligations.DecodeIsInverseOfEncode : Prop :=
  ∀ (c : Word32) (i : Instr), decode c = .ok i ↔ i.WellFormed ∧ encode i = c

/-- 30_encoding.md R71: the first test that applies, in the order opcode, reserved fields, round index. -/
def Obligations.DecodeTestsInOrder : Prop :=
  ∀ c : Word32,
    let op := c.toNat % 0x100
    let idx := c.toNat / 0x100 % 0x100
    let rsvd := c.toNat / 0x10000
    (7 < op → ∃ e, decode c = .error e ∧ errorNumber e = 2) ∧
    (op ≤ 7 → (rsvd ≠ 0 ∨ (op ≠ 4 ∧ idx ≠ 0)) → ∃ e, decode c = .error e ∧ errorNumber e = 3) ∧
    (op = 4 → rsvd = 0 → 60 < idx → ∃ e, decode c = .error e ∧ errorNumber e = 4) ∧
    (op ≤ 7 → rsvd = 0 → (op ≠ 4 → idx = 0) → (op = 4 → idx ≤ 60) →
      ∃ i, decode c = .ok i ∧ (opcodeOf i).toNat = op ∧ (idxOf i).toNat = idx)

/-- 30_encoding.md R64, R67: the 68 words of the opcode map are different, and they are the only ones that
decode to a command. -/
def Obligations.SixtyEightLegalWords : Prop :=
  legalWords.length = 68 ∧ legalWords.Nodup ∧ ∀ c, (∃ i, decode c = .ok i) ↔ c ∈ legalWords

/-- 30_encoding.md R64: one word of each command, as the rule writes it. -/
def Obligations.SampleWordsDecode : Prop :=
  decode 0x00000000 = .ok .nop ∧ decode 0x00000001 = .ok .fadd ∧ decode 0x00000002 = .ok .fmul ∧
  decode 0x00000003 = .ok .pow17 ∧ decode 0x00003C04 = .ok (.round 60) ∧
  decode 0x00000005 = .ok .encrypt ∧ decode 0x00000006 = .ok .hinit ∧ decode 0x00000007 = .ok .habsorb

/-! ### Steps -/

/-- 10_state.md R31, 40_command.md R83: when a host write of `c` to `CMD` arrives, the step is the decoded
command's meaning on the state without that event, or the rejection of the word. -/
def Obligations.StepRunsDecodedCommand : Prop :=
  ∀ (s : State) (c : Word32) (rest : List Event), s.inbox = hostWrite 0x04 c :: rest →
    (∀ i, decode c = .ok i → step s = exec i { s with inbox := rest }) ∧
    (∀ e, decode c = .error e → step s = .next (rejectCommand e { s with inbox := rest }))

/-- The word of a well-formed command, placed as the next `CMD` write, is read back as that command and run
as it by the very next step (10_state.md R31, R33; log 15). -/
def Obligations.FetchWordRunsCommand : Prop :=
  ∀ (i : Instr) (s : State), i.WellFormed →
    decodeTableWord 32 (encode i).toNat = some i ∧
    step (s.withFetchWord 32 (encode i).toNat) = exec i s

/-- A step is refused exactly for an access that is not an aligned 32-bit access inside the block
(20_memory.md R45, and R50 for the converse), and for an access during reset (70_reset_and_hazards.md R183).
That an offset of 0x100 or more is refused is deduced from 93_implementation_defined.md U7 (log 6). -/
def Obligations.OnlyBadAccessesRefused : Prop :=
  ∀ s : State, (∃ why, step s = .refused why) ↔ ∃ e rest, s.inbox = e :: rest ∧ ¬ Servable e

/-- 70_reset_and_hazards.md R183. (The form of the event is the model's: log 21.) -/
def Obligations.AccessDuringResetRefused : Prop :=
  ∀ (s : State) (x : Access) (rest : List Event), s.inbox = .reset (some x) :: rest →
    step s = .refused .accessDuringReset

/-! ### Reset -/

/-- 10_state.md R37: every value the rule lists, in the state after reset. What the rule does not list
(the inbox and the answers, log 17) is left out. -/
def Obligations.ResetStateHasResetValues : Prop :=
  let s := State.reset
  s.a = 0 ∧ s.b = 0 ∧ s.r = 0 ∧ s.s = 0 ∧ s.busy = false ∧ s.err = false ∧ s.errCode = 0 ∧
  s.pend = none ∧ readReg s .status = 0x00000000 ∧ readReg s .info = 0x0000113D ∧ readReg s .cmd = 0 ∧
  s.build.Legal ∧ ∀ k, readReg s (.modulus k) = getWord s.build.modulus k

/-- 70_reset_and_hazards.md R180, R181: the reset step, from any state, a pending command or not. -/
def Obligations.ResetStepSetsEveryRegister : Prop :=
  ∀ (s : State) (rest : List Event), s.inbox = .reset none :: rest →
    ∃ t, step s = .next t ∧ t.a = 0 ∧ t.b = 0 ∧ t.r = 0 ∧ t.s = 0 ∧ t.busy = false ∧ t.err = false ∧
      t.errCode = 0 ∧ t.pend = none ∧ t.build = s.build ∧ readReg t .info = 0x0000113D

/-! ### The host's view of the registers -/

/-- 40_command.md R81: an aligned read inside the block returns the mapped word and changes nothing else.
(That the value is put at the head of `returned` is the model's way to say it is returned: log 5.) -/
def Obligations.HostReadReturnsMappedWord : Prop :=
  ∀ (s : State) (off : Nat) (rest : List Event), s.inbox = hostRead off :: rest → off % 4 = 0 →
    off < 0x100 →
    ∃ v, step s = .next { s with inbox := rest, returned := v :: s.returned } ∧
      (off = 0x00 → v = 0x0000113D) ∧
      (off = 0x04 → v = 0) ∧
      (off = 0x08 → v.toNat = s.errCode.toNat * 16 + s.err.toNat * 2 + s.busy.toNat) ∧
      (∀ k : Fin 8,
        (off = 0x20 + 4 * k → v = s.a.extractLsb' (32 * k) 32) ∧
        (off = 0x40 + 4 * k → v = s.b.extractLsb' (32 * k) 32) ∧
        (off = 0x60 + 4 * k → v = s.r.extractLsb' (32 * k) 32) ∧
        (off = 0x80 + 4 * k → v = s.s.extractLsb' (32 * k) 32) ∧
        (off = 0xA0 + 4 * k → v = s.build.modulus.extractLsb' (32 * k) 32)) ∧
      ((0x0C ≤ off ∧ off < 0x20) ∨ 0xC0 ≤ off → v = 0)

/-- 40_command.md R82: an aligned write inside the block. `A` and `B` words may be written while busy; a
word write leaves the other seven words; every other register but `CMD` and `STATUS` ignores it. -/
def Obligations.HostWriteChangesMappedRegister : Prop :=
  ∀ (s : State) (off : Nat) (v : Word32) (rest : List Event), s.inbox = hostWrite off v :: rest →
    off % 4 = 0 → off < 0x100 →
    let s' := { s with inbox := rest }
    (off = 0x04 →
      (∀ i, decode v = .ok i → step s = exec i s') ∧
      (∀ e, decode v = .error e → step s = .next (rejectCommand e s'))) ∧
    (off = 0x08 → v[1] = true → step s = .next { s' with err := false, errCode := 0 }) ∧
    (off = 0x08 → v[1] = false → step s = .next s') ∧
    (∀ k : Fin 8,
      (off = 0x20 + 4 * k → ∃ a, step s = .next { s' with a := a } ∧
        a.extractLsb' (32 * k) 32 = v ∧
        ∀ l : Fin 8, l ≠ k → a.extractLsb' (32 * l) 32 = s.a.extractLsb' (32 * l) 32) ∧
      (off = 0x40 + 4 * k → ∃ b, step s = .next { s' with b := b } ∧
        b.extractLsb' (32 * k) 32 = v ∧
        ∀ l : Fin 8, l ≠ k → b.extractLsb' (32 * l) 32 = s.b.extractLsb' (32 * l) 32)) ∧
    (off = 0x00 ∨ (0x0C ≤ off ∧ off < 0x20) ∨ 0x60 ≤ off → step s = .next s')

/-- 40_command.md R88: the error clear, with its corner cases (nothing to clear; `BUSY` not writable) and
its example. -/
def Obligations.ErrorClearWritesErrOnly : Prop :=
  ∀ (s : State) (v : Word32) (rest : List Event), s.inbox = hostWrite 0x08 v :: rest →
    ∃ t, step s = .next t ∧
      t = { s with inbox := rest, err := t.err, errCode := t.errCode } ∧
      (v[1] = true → t.err = false ∧ t.errCode = 0) ∧
      (v[1] = false → t.err = s.err ∧ t.errCode = s.errCode) ∧
      (s.Inv → s.err = false → t = { s with inbox := rest }) ∧
      (readReg s .status = 0x00000052 → v = 0x2 → readReg t .status = 0x00000000)

/-- 20_memory.md R42: each 256-bit register is the sum of its eight words, the least significant at the
lowest offset. -/
def Obligations.RegisterIsSumOfItsWords : Prop :=
  ∀ s : State,
    (∑ k : Fin 8, (readReg s (regAt (0x20 + 4 * k))).toNat * 2 ^ (32 * k.val)) = s.a.toNat ∧
    (∑ k : Fin 8, (readReg s (regAt (0x40 + 4 * k))).toNat * 2 ^ (32 * k.val)) = s.b.toNat ∧
    (∑ k : Fin 8, (readReg s (regAt (0x60 + 4 * k))).toNat * 2 ^ (32 * k.val)) = s.r.toNat ∧
    (∑ k : Fin 8, (readReg s (regAt (0x80 + 4 * k))).toNat * 2 ^ (32 * k.val)) = s.s.toNat ∧
    (∑ k : Fin 8, (readReg s (regAt (0xA0 + 4 * k))).toNat * 2 ^ (32 * k.val)) = s.build.P

/-- 10_state.md R21, R22, 30_encoding.md R73: the eight writes of `ld.a` (of `ld.b`) leave the written value
in `A` (in `B`) and change nothing else, a command pending or not. -/
def Obligations.EightWritesLoadAnOperand : Prop :=
  ∀ (s : State) (v : Word256) (rest : List Event),
    (s.inbox = (AsmLine.ldA v).events ++ rest → Reaches 8 s { s with a := v, inbox := rest }) ∧
    (s.inbox = (AsmLine.ldB v).events ++ rest → Reaches 8 s { s with b := v, inbox := rest })

/-- 20_memory.md R40, R43 (the views by byte address are the model's: log 6): the block answers the 64 words at `BASE` and no other address, and byte `i` of a
word is its bits `[8i+7:8i]`. -/
def Obligations.BytesOfWordsAreLittleEndian : Prop :=
  ∀ (s : State) (addr : Nat), s.build.Legal →
    (∀ off, addr = s.build.base + off → off % 4 = 0 → off < 0x100 →
      memRead s addr = some (readReg s (regAt off)) ∧
      ∀ i : Fin 4, memByte s (addr + i) = some ((readReg s (regAt off)).extractLsb' (8 * i) 8)) ∧
    (addr < s.build.base ∨ s.build.base + 0x100 ≤ addr → memRead s addr = none ∧ memByte s addr = none)

/-- 10_state.md R35: the round constants are not host-visible: no register shows them. -/
def Obligations.RoundConstantsNotReadable : Prop :=
  ∀ (s : State) (rc : Vector Word256 61) (g : Reg),
    readReg { s with build := { s.build with constants := rc } } g = readReg s g

/-- 00_scope.md R9, R10, R12: a configuration is taken, unchanged, exactly if it meets the constraints. -/
def Obligations.IllegalConfigurationRefused : Prop :=
  ∀ c : Build, (c.Legal → ∃ l, c.accept = some l ∧ l.build = c) ∧ (¬ c.Legal → c.accept = none)

/-! ### Issue and errors -/

/-- 40_command.md R83: the checks in the order written; `nop` returns, every other command latches its
operation and the values of `A`, `B` and `S`. -/
def Obligations.IssueChecksInOrder : Prop :=
  ∀ (s : State) (c : Word32) (rest : List Event), s.inbox = hostWrite 0x04 c :: rest →
    let s' := { s with inbox := rest }
    (s.pend ≠ none → step s = .next (raiseError .busy s')) ∧
    (s.pend = none → ∀ e, decode c = .error e → step s = .next (raiseError e s')) ∧
    (s.pend = none → ∀ i, decode c = .ok i →
      let badA := (opcodeOf i).toNat ∈ [1, 2, 3, 4, 5, 7] ∧ s.build.P ≤ s.a.toNat
      let badB := (opcodeOf i).toNat ∈ [1, 2, 4, 5] ∧ s.build.P ≤ s.b.toNat
      (badA → step s = .next (raiseError .aRange s')) ∧
      (¬ badA → badB → step s = .next (raiseError .bRange s')) ∧
      (¬ badA → ¬ badB → i = .nop → step s = .next s') ∧
      (¬ badA → ¬ badB → i ≠ .nop → ∃ op, pendOpOf i = some op ∧
        step s = .next { s' with pend := some { op := op, a := s.a, b := s.b, k := s.s } }))

/-- 60_exceptions.md R161: the first error's code is kept; nothing but `ERR` and `ERRCODE` changes. -/
def Obligations.RaiseErrorKeepsFirstCode : Prop :=
  ∀ (e : ErrorCode) (s : State),
    (s.err = false → raiseError e s = { s with err := true, errCode := errorNumber e }) ∧
    (s.err = true → raiseError e s = s)

/-- 60_exceptions.md R162, R163: an error is recorded exactly if some cause applies, and its code is the
lowest among the causes that apply. -/
def Obligations.LowestApplicableErrorWins : Prop :=
  ∀ (s : State) (c : Word32) (rest : List Event), s.inbox = hostWrite 0x04 c :: rest → s.err = false →
    ∃ t, step s = .next t ∧
      (∀ e, CauseApplies s c e → t.err = true ∧ t.errCode.toNat ≤ (errorNumber e).toNat) ∧
      (t.err = true → ∃ e, CauseApplies s c e ∧ t.errCode = errorNumber e)

/-- 60_exceptions.md R160: a command that raises an error changes `ERR` and `ERRCODE` only, and no step but
a `CMD` write raises one. -/
def Obligations.ErrorsArePrecise : Prop :=
  (∀ (s : State) (c : Word32) (rest : List Event) (e : ErrorCode),
    s.inbox = hostWrite 0x04 c :: rest → CauseApplies s c e →
    ∃ t, step s = .next t ∧ t = { s with inbox := rest, err := t.err, errCode := t.errCode }) ∧
  (∀ s t : State, step s = .next t → (∀ c rest, s.inbox ≠ hostWrite 0x04 c :: rest) →
    (t.err = true → s.err = true ∧ t.errCode = s.errCode))

/-- 40_command.md R89: `ERR` and `ERRCODE` have no influence on issue or completion, and with `ERR = 1` a
command keeps the first code. -/
def Obligations.ErrorsDoNotBlockCommands : Prop :=
  ∀ (s : State) (i : Instr) (e : Bool) (code : BitVec 4),
    (∃ t t', exec i s = .next t ∧ exec i { s with err := e, errCode := code } = .next t' ∧
      t' = { t with err := t'.err, errCode := t'.errCode } ∧
      (e = true → t'.err = true ∧ t'.errCode = code)) ∧
    engineTurn { s with err := e, errCode := code } = { engineTurn s with err := e, errCode := code }

/-! ### The commands -/

/-- 40_command.md R87. -/
def Obligations.NopRule : Prop :=
  encode .nop = 0x00000000 ∧
  (∀ c, opcodeField c = 0x00 → c ≠ 0x00000000 → decode c = .error .rsvdField) ∧
  ∀ s : State,
    (s.pend ≠ none → exec .nop s = .next (raiseError .busy s)) ∧
    (s.pend = none → exec .nop s = .next s)

/-- 41_field.md R105, 40_command.md R85: with both operands below `P`, `fadd` latches, and its completion
writes `(A + B) mod P` to `R` and leaves everything else as it was before the issue. -/
def Obligations.FaddRule : Prop :=
  encode .fadd = 0x00000001 ∧
  (∀ c, opcodeField c = 0x01 → c ≠ 0x00000001 → decode c = .error .rsvdField) ∧
  ∀ s : State,
    (s.pend ≠ none → exec .fadd s = .next (raiseError .busy s)) ∧
    (s.pend = none → s.build.P ≤ s.a.toNat → exec .fadd s = .next (raiseError .aRange s)) ∧
    (s.pend = none → s.a.toNat < s.build.P → s.build.P ≤ s.b.toNat →
      exec .fadd s = .next (raiseError .bRange s)) ∧
    (s.pend = none → s.a.toNat < s.build.P → s.b.toNat < s.build.P →
      ∃ t r, exec .fadd s = .next t ∧ t.busy = true ∧ t = { s with pend := t.pend } ∧
        engineTurn t = { s with r := r } ∧ r.toNat = (s.a.toNat + s.b.toNat) % s.build.P)

/-- 41_field.md R106, 40_command.md R85. -/
def Obligations.FmulRule : Prop :=
  encode .fmul = 0x00000002 ∧
  (∀ c, opcodeField c = 0x02 → c ≠ 0x00000002 → decode c = .error .rsvdField) ∧
  ∀ s : State,
    (s.pend ≠ none → exec .fmul s = .next (raiseError .busy s)) ∧
    (s.pend = none → s.build.P ≤ s.a.toNat → exec .fmul s = .next (raiseError .aRange s)) ∧
    (s.pend = none → s.a.toNat < s.build.P → s.build.P ≤ s.b.toNat →
      exec .fmul s = .next (raiseError .bRange s)) ∧
    (s.pend = none → s.a.toNat < s.build.P → s.b.toNat < s.build.P →
      ∃ t r, exec .fmul s = .next t ∧ t.busy = true ∧ t = { s with pend := t.pend } ∧
        engineTurn t = { s with r := r } ∧ r.toNat = (s.a.toNat * s.b.toNat) % s.build.P)

/-- 41_field.md R107, R102: the value is `A^17 mod P`; `B` is neither checked nor read. -/
def Obligations.Pow17Rule : Prop :=
  encode .pow17 = 0x00000003 ∧
  (∀ c, opcodeField c = 0x03 → c ≠ 0x00000003 → decode c = .error .rsvdField) ∧
  ∀ s : State,
    (s.pend ≠ none → exec .pow17 s = .next (raiseError .busy s)) ∧
    (s.pend = none → s.build.P ≤ s.a.toNat → exec .pow17 s = .next (raiseError .aRange s)) ∧
    (s.pend = none → s.a.toNat < s.build.P →
      ∃ t r, exec .pow17 s = .next t ∧ t.busy = true ∧ t = { s with pend := t.pend } ∧
        engineTurn t = { s with r := r } ∧ r.toNat = s.a.toNat ^ 17 % s.build.P)

/-- 42_permutation.md R123, R120: `R` takes `(A + B + RC[i])^17 mod P`; an index above 60 is `Error(4)`. -/
def Obligations.RoundRule : Prop :=
  (∀ idx : BitVec 8, encode (.round idx) = 0x00000004 ||| (idx.setWidth 32 <<< 8)) ∧
  (∀ c, opcodeField c = 0x04 → rsvdField c ≠ 0 → decode c = .error .rsvdField) ∧
  (∀ c, opcodeField c = 0x04 → rsvdField c = 0 → 60 < (idxField c).toNat →
    decode c = .error .roundIndex) ∧
  ∀ (s : State) (idx : BitVec 8),
    (s.pend ≠ none → exec (.round idx) s = .next (raiseError .busy s)) ∧
    (s.pend = none → 60 < idx.toNat → exec (.round idx) s = .next (raiseError .roundIndex s)) ∧
    (s.pend = none → idx.toNat ≤ 60 → s.build.P ≤ s.a.toNat →
      exec (.round idx) s = .next (raiseError .aRange s)) ∧
    (s.pend = none → idx.toNat ≤ 60 → s.a.toNat < s.build.P → s.build.P ≤ s.b.toNat →
      exec (.round idx) s = .next (raiseError .bRange s)) ∧
    (∀ i : Fin 61, idx.toNat = i → s.pend = none → s.a.toNat < s.build.P → s.b.toNat < s.build.P →
      ∃ t r, exec (.round idx) s = .next t ∧ t.busy = true ∧ t = { s with pend := t.pend } ∧
        engineTurn t = { s with r := r } ∧
        r.toNat = (s.a.toNat + s.b.toNat + s.build.RC i) ^ 17 % s.build.P)

/-- 42_permutation.md R124, R121, R122: the accumulator starts at `A`, round `i` takes it to
`(acc + B + RC[i])^17 mod P` for `i = 0..60`, and `R` takes `(acc + B) mod P`. -/
def Obligations.EncryptRule : Prop :=
  encode .encrypt = 0x00000005 ∧
  (∀ c, opcodeField c = 0x05 → c ≠ 0x00000005 → decode c = .error .rsvdField) ∧
  ∀ s : State,
    (s.pend ≠ none → exec .encrypt s = .next (raiseError .busy s)) ∧
    (s.pend = none → s.build.P ≤ s.a.toNat → exec .encrypt s = .next (raiseError .aRange s)) ∧
    (s.pend = none → s.a.toNat < s.build.P → s.build.P ≤ s.b.toNat →
      exec .encrypt s = .next (raiseError .bRange s)) ∧
    (s.pend = none → s.a.toNat < s.build.P → s.b.toNat < s.build.P →
      ∀ acc : Nat → Nat, acc 0 = s.a.toNat →
      (∀ i : Fin 61, acc (i + 1) = (acc i + s.b.toNat + s.build.RC i) ^ 17 % s.build.P) →
      ∃ t r, exec .encrypt s = .next t ∧ t.busy = true ∧ t = { s with pend := t.pend } ∧
        engineTurn t = { s with r := r } ∧ r.toNat = (acc 61 + s.b.toNat) % s.build.P)

/-- 43_hash.md R142: `hinit` reads no operand, so `A` and `B` may hold any value. -/
def Obligations.HinitRule : Prop :=
  encode .hinit = 0x00000006 ∧
  (∀ c, opcodeField c = 0x06 → c ≠ 0x00000006 → decode c = .error .rsvdField) ∧
  ∀ s : State,
    (s.pend ≠ none → exec .hinit s = .next (raiseError .busy s)) ∧
    (s.pend = none →
      ∃ t, exec .hinit s = .next t ∧ t.busy = true ∧ t = { s with pend := t.pend } ∧
        engineTurn t = { s with s := 0 })

/-- 43_hash.md R143, R140: one chaining step keyed by `S`; `S` and `R` both take
`encrypt(S, A) + S + A mod P`. `B` is neither checked nor read. -/
def Obligations.HabsorbRule : Prop :=
  encode .habsorb = 0x00000007 ∧
  (∀ c, opcodeField c = 0x07 → c ≠ 0x00000007 → decode c = .error .rsvdField) ∧
  ∀ s : State,
    (s.pend ≠ none → exec .habsorb s = .next (raiseError .busy s)) ∧
    (s.pend = none → s.build.P ≤ s.a.toNat → exec .habsorb s = .next (raiseError .aRange s)) ∧
    (s.pend = none → s.a.toNat < s.build.P →
      ∀ acc : Nat → Nat, acc 0 = s.a.toNat →
      (∀ i : Fin 61, acc (i + 1) = (acc i + s.s.toNat + s.build.RC i) ^ 17 % s.build.P) →
      ∃ t r, exec .habsorb s = .next t ∧ t.busy = true ∧ t = { s with pend := t.pend } ∧
        engineTurn t = { s with s := r, r := r } ∧
        r.toNat = (acc 61 + s.s.toNat + s.s.toNat + s.a.toNat) % s.build.P)

/-! ### Frames and determinism -/

/-- 40_command.md R83, R84, 60_exceptions.md R160: what the issue of any of the eight commands leaves
unchanged: every register but `STATUS` reads as before, a pending command is untouched, and an error is not
recorded together with a latch. -/
def Obligations.IssueFrame : Prop :=
  ∀ (i : Instr) (s t : State), exec i s = .next t →
    t.build = s.build ∧ t.a = s.a ∧ t.b = s.b ∧ t.r = s.r ∧ t.s = s.s ∧ t.inbox = s.inbox ∧
    t.returned = s.returned ∧
    (∀ g, g ≠ .status → readReg t g = readReg s g) ∧
    (s.pend ≠ none → t.pend = s.pend) ∧
    (t.pend ≠ s.pend → t.err = s.err ∧ t.errCode = s.errCode) ∧
    (s.err = true → t.err = true ∧ t.errCode = s.errCode)

/-- 40_command.md R85, 10_state.md R23, R24: what a completion leaves unchanged. `fadd`, `fmul`, `pow17`,
`round` and `encrypt` change `R` only, `hinit` `S` only, `habsorb` `S` and `R`, besides `BUSY`. -/
def Obligations.CompletionFrame : Prop :=
  ∀ (s : State) (q : Pending), s.pend = some q →
    let t := engineTurn s
    t.pend = none ∧ t.build = s.build ∧ t.a = s.a ∧ t.b = s.b ∧ t.err = s.err ∧
    t.errCode = s.errCode ∧ t.inbox = s.inbox ∧ t.returned = s.returned ∧
    (q.op ≠ .hinit → q.op ≠ .habsorb → t.s = s.s) ∧
    (q.op = .hinit → t.r = s.r) ∧
    (q.op = .habsorb → t.r = t.s) ∧
    ∀ g, g ≠ .status → (∀ k, g ≠ .r k) → (∀ k, g ≠ .s k) → readReg t g = readReg s g

/-- 40_command.md R91: what a completion writes is a function of the pending record, `P` and `RC` only: two
states that agree on these agree on what is written, whatever else differs, `BASE` included. -/
def Obligations.ResultsDependOnLatchedOperands : Prop :=
  ∀ (s t : State) (q : Pending), s.pend = some q → t.pend = some q →
    s.build.modulus = t.build.modulus → s.build.constants = t.build.constants →
    (q.op ≠ .hinit → (engineTurn s).r = (engineTurn t).r) ∧
    (q.op = .hinit ∨ q.op = .habsorb → (engineTurn s).s = (engineTurn t).s)

/-- 70_reset_and_hazards.md R190, 20_memory.md R55: a host write of a register while a command is pending
does not reach it: writing and completing commute. -/
def Obligations.RegisterWritesCommuteWithCompletion : Prop :=
  ∀ (v : Word32) (s : State) (g : Reg), engineTurn (writeReg v s g) = writeReg v (engineTurn s) g

/-! ### Whole-machine rules -/

/-- 10_state.md R25, R29, 60_exceptions.md R165: every step keeps the invariant. -/
def Obligations.StepKeepsUnitInvariant : Prop :=
  ∀ s t : State, s.Inv → step s = .next t → t.Inv

/-- The state after reset meets the invariant (10_state.md R37). -/
def Obligations.ResetMeetsUnitInvariant : Prop :=
  State.reset.Inv

/-- 20_memory.md R57: no run changes `P`, `RC` (or the base address). -/
def Obligations.ConfigurationNeverChanges : Prop :=
  ∀ (n : Nat) (s t : State), Reaches n s t → t.build = s.build

/-- 10_state.md R24: `S` is written only by the completions of `hinit` (0) and `habsorb` (the chaining step)
and by reset (0). -/
def Obligations.ChainingStateWrittenOnlyByHash : Prop :=
  ∀ s t : State, step s = .next t → t.s ≠ s.s →
    (t.s = 0 ∧ ∃ rest, s.inbox = .reset none :: rest) ∨
    ∃ q, s.pend = some q ∧ t.pend = none ∧
      ((q.op = .hinit ∧ t.s = 0) ∨
       (q.op = .habsorb ∧ t.s = BitVec.ofNat 256 (absorb s.build q.k.toNat q.a.toNat) ∧ t.r = t.s))

/-- 10_state.md R23: `R` is written only by a completion other than `hinit`'s and by reset. -/
def Obligations.ResultWrittenOnlyAtCompletion : Prop :=
  ∀ s t : State, step s = .next t → t.r ≠ s.r →
    (t.r = 0 ∧ ∃ rest, s.inbox = .reset none :: rest) ∨
    ∃ q, s.pend = some q ∧ q.op ≠ .hinit ∧ t.pend = none

/-- 10_state.md R21, R22: the unit never writes `A` or `B` except at reset; otherwise only a host write to
one of its words does, and it changes that word. -/
def Obligations.OperandsWrittenOnlyByHost : Prop :=
  ∀ s t : State, step s = .next t →
    (t.a ≠ s.a → (t.a = 0 ∧ ∃ rest, s.inbox = .reset none :: rest) ∨
      ∃ (k : Fin 8) (v : Word32) (rest : List Event), s.inbox = hostWrite (0x20 + 4 * k) v :: rest ∧
        ∀ l, getWord t.a l = if l = k then v else getWord s.a l) ∧
    (t.b ≠ s.b → (t.b = 0 ∧ ∃ rest, s.inbox = .reset none :: rest) ∨
      ∃ (k : Fin 8) (v : Word32) (rest : List Event), s.inbox = hostWrite (0x40 + 4 * k) v :: rest ∧
        ∀ l, getWord t.b l = if l = k then v else getWord s.b l)

/-- 10_state.md R28: `ERR` is set only by a `CMD` write to which some error applies, and cleared only by a
write to `STATUS` with bit 1 set or by reset. -/
def Obligations.ErrChangesOnlyByRaiseAndClear : Prop :=
  ∀ s t : State, step s = .next t →
    (s.err = false → t.err = true → ∃ c rest e, s.inbox = hostWrite 0x04 c :: rest ∧ CauseApplies s c e) ∧
    (s.err = true → t.err = false →
      (∃ rest, s.inbox = .reset none :: rest) ∨
      ∃ (v : Word32) (rest : List Event), s.inbox = hostWrite 0x08 v :: rest ∧ v[1] = true)

/-- 10_state.md R27, 40_command.md R86: a command becomes pending only by a `CMD` write of a command other
than `nop`, stays pending unchanged, and ends only by its completion or by reset. -/
def Obligations.BusyChangesOnlyByIssueAndCompletion : Prop :=
  ∀ s t : State, step s = .next t →
    (s.pend = none → t.pend ≠ none →
      ∃ c rest i, s.inbox = hostWrite 0x04 c :: rest ∧ decode c = .ok i ∧ i ≠ .nop) ∧
    (∀ q, s.pend = some q → t.pend = some q ∨
      (t.pend = none ∧ ((∃ rest, s.inbox = .reset none :: rest) ∨ t.r = (complete q s).r ∧ t.s = (complete q s).s)))

/-- 20_memory.md R48, 70_reset_and_hazards.md R188, R189: until the engine's turn or a reset, host accesses
leave `R` and `S` at their values and a pending command as it is. -/
def Obligations.PendingResultsNotVisible : Prop :=
  ∀ (n : Nat) (s t : State), n ≤ s.inbox.length → (∀ e ∈ s.inbox.take n, ∃ x, e = .access x) →
    Reaches n s t → t.r = s.r ∧ t.s = s.s ∧ ∀ q, s.pend = some q → t.pend = some q

/-- 20_memory.md R52: a `STATUS` read shows `BUSY = 0` exactly when no command is pending, and the results
are then the ones every later read sees. -/
def Obligations.StatusReadShowsCompletion : Prop :=
  ∀ (s : State) (rest : List Event), s.inbox = hostRead 0x08 :: rest →
    ∃ t v, step s = .next t ∧ t.returned = v :: s.returned ∧ (v[0] = false ↔ s.pend = none) ∧
      t.r = s.r ∧ t.s = s.s ∧ t.pend = s.pend

/-- 40_command.md R86, 70_reset_and_hazards.md R181, R192: every servable event is answered and the unit ends
idle; a pending command stays as it is until one step, within the inbox's length and one more, in which it
writes the results of its completion, unless that step is a reset. (That a busy unit with an empty inbox
completes is the model's form of weak fairness: log 23.) -/
def Obligations.EveryCommandCompletes : Prop :=
  ∀ s : State, (∀ e ∈ s.inbox, Servable e) →
    (∃ t, Reaches (s.inbox.length + 1) s t ∧ t.pend = none ∧ t.inbox = []) ∧
    ∀ q, s.pend = some q → ∃ n u v, n ≤ s.inbox.length ∧
      (∀ m ≤ n, ∀ w, Reaches m s w → w.pend = some q) ∧
      Reaches n s u ∧ step u = .next v ∧ v.pend = none ∧
      (s.inbox[n]? = some (.reset none) ∨ (v.r = (complete q s).r ∧ v.s = (complete q s).s))

/-- 60_exceptions.md R176: a run that ends with `ERR = 0` and in which nothing clears `ERR` raised no error
at all. -/
def Obligations.CleanRunRaisedNoError : Prop :=
  ∀ (n : Nat) (s t : State), CleanRun n s t → ∀ m ≤ n, ∀ u, Reaches m s u → u.err = false

/-! ### The field, the permutation and the hash -/

/-- 41_field.md R100. -/
def Obligations.FieldSumReducesOnce : Prop :=
  ∀ p a b : Nat, a < p → b < p →
    addp p a b = (a + b) % p ∧ addp p a b < p ∧ addp p a b = if a + b < p then a + b else a + b - p

/-- 41_field.md R111: the algebraic facts, and the bijectivity of the power map. -/
def Obligations.FieldLawsHold : Prop :=
  ∀ c : Build, c.Legal →
    (∀ a b, addp c.P a b = addp c.P b a) ∧
    (∀ a b d, addp c.P (addp c.P a b) d = addp c.P a (addp c.P b d)) ∧
    (∀ a b, mulp c.P a b = mulp c.P b a) ∧
    (∀ a b d, mulp c.P (mulp c.P a b) d = mulp c.P a (mulp c.P b d)) ∧
    (∀ a < c.P, addp c.P a 0 = a ∧ mulp c.P a 1 = a ∧ mulp c.P a 0 = 0) ∧
    addp c.P (c.P - 1) 1 = 0 ∧ mulp c.P (c.P - 1) (c.P - 1) = 1 ∧
    pow17 c.P 0 = 0 ∧ pow17 c.P 1 = 1 ∧ pow17 c.P (c.P - 1) = c.P - 1 ∧
    Set.BijOn (pow17 c.P) (Set.Iio c.P) (Set.Iio c.P)

/-- 42_permutation.md R126. -/
def Obligations.EncryptIsBijection : Prop :=
  ∀ c : Build, c.Legal → ∀ k < c.P, Set.BijOn (encrypt c k) (Set.Iio c.P) (Set.Iio c.P)

/-- 42_permutation.md R125: 61 `round` commands, `R` copied to `A` after each, then one `fadd`, give the `R`
of one `encrypt`. -/
def Obligations.EncryptEqualsRoundsAndFadd : Prop :=
  ∀ s : State, s.build.Legal → s.pend = none → s.a.toNat < s.build.P → s.b.toNat < s.build.P →
    let t := (List.finRange 61).foldl
      (fun u i => copyRToA (runCommand (.round (BitVec.ofNat 8 i.val)) u)) s
    (runCommand .fadd t).r = (runCommand .encrypt s).r

/-- 43_hash.md R147: a chaining step from `B` with input `A`, computed without `S`. -/
def Obligations.AbsorbWithoutChainingState : Prop :=
  ∀ s : State, s.build.Legal → s.pend = none → s.a.toNat < s.build.P → s.b.toNat < s.build.P →
    let t := copyRToA (runCommand .encrypt s)
    let u := copyRToA (runCommand .fadd t)
    let v := runCommand .fadd { u with b := s.a }
    v.r.toNat = absorb s.build s.b.toNat s.a.toNat ∧ v.s = s.s

/-- 43_hash.md R144, R145, R141: the hash protocol from any idle unit, for every sequence and every number of
polls: with `ERR = 0` at the end the value read is the hash of the elements; elements below `P` raise no
error; an empty sequence leaves `R`, any other leaves `R = S`. (The form of the host's `wait` is the model's:
log 22.) -/
def Obligations.HashProtocolReadsHash : Prop :=
  ∀ (s : State) (first : Nat) (xs : List (Word256 × Nat)) (rest : List Event),
    s.build.Legal → s.pend = none → s.inbox = (AsmLine.hash first xs).events ++ rest →
    ∃ t, Reaches (AsmLine.hash first xs).events.length s t ∧ t.inbox = rest ∧ t.pend = none ∧
      (t.err = false →
        lastValueRead t = hashSeq s.build (xs.map fun x => x.1.toNat) ∧
        t.s.toNat = hashSeq s.build (xs.map fun x => x.1.toNat)) ∧
      (s.err = false → (∀ x ∈ xs, x.1.toNat < s.build.P) → t.err = false) ∧
      (xs = [] → t.r = s.r ∧ t.s = 0) ∧
      (t.err = false → xs ≠ [] → t.r = t.s)

/-- 70_reset_and_hazards.md R194, 42_permutation.md R122: counted, each function has the value the machine
computes and makes the table's number of multiplications and additions. -/
def Obligations.OperationCountsMatchTable : Prop :=
  ∀ (c : Build) (a b : Nat) (n : Tally),
    addpCounted c.P a b n = (addp c.P a b, ⟨n.mulps, n.addps + 1⟩) ∧
    mulpCounted c.P a b n = (mulp c.P a b, ⟨n.mulps + 1, n.addps⟩) ∧
    pow17Counted c.P a n = (pow17 c.P a, ⟨n.mulps + 5, n.addps⟩) ∧
    (∀ i, mimcRoundCounted c a b i n = (mimcRound c a b i, ⟨n.mulps + 5, n.addps + 2⟩)) ∧
    encryptCounted c a b n = (encrypt c a b, ⟨n.mulps + 305, n.addps + 123⟩) ∧
    absorbCounted c a b n = (absorb c a b, ⟨n.mulps + 305, n.addps + 125⟩) ∧
    ∀ xs, hashCounted c xs n =
      (hashSeq c xs, ⟨n.mulps + 305 * xs.length, n.addps + 125 * xs.length⟩)

/-- 70_reset_and_hazards.md R187: the byte decoder outside the unit, the most significant byte first; the
empty string gives 0. -/
def Obligations.ByteDecoderIsBigEndian : Prop :=
  ∀ (p : Nat) (bytes : List (BitVec 8)),
    fieldOfBytes p bytes =
      (∑ j : Fin bytes.length, bytes[j].toNat * 256 ^ (bytes.length - 1 - j.val)) % p ∧
    fieldOfBytes p [] = 0
end

