-- ==== Sys2Proof/Laws/Decode.lean ====
section
/-! SUPPORT. The fields of an encoded word, words with equal fields, and the mask and match of each row of
spec/opcode_table.json. -/

namespace Sys2Proof

@[simp] theorem opcodeField_encode (i : Instr) : opcodeField (encode i) = opcodeOf i := by
  apply BitVec.eq_of_getLsbD_eq
  intro j hj
  simp [opcodeField, encode, hj, show j < 32 by omega]

@[simp] theorem idxField_encode (i : Instr) : idxField (encode i) = idxOf i := by
  apply BitVec.eq_of_getLsbD_eq
  intro j hj
  simp [idxField, encode, hj, show 8 + j < 32 by omega]

@[simp] theorem rsvdField_encode (i : Instr) : rsvdField (encode i) = 0 := by
  apply BitVec.eq_of_getLsbD_eq
  intro j hj
  simp [rsvdField, encode, BitVec.getLsbD_of_ge (opcodeOf i) (16 + j) (by omega),
    show ¬ 16 + j < 8 by omega, BitVec.getLsbD_of_ge (idxOf i) (16 + j - 8) (by omega)]

/-- Two words with the same three fields are equal (30_encoding.md R60). -/
theorem word_ext {c d : Word32} (ho : opcodeField c = opcodeField d) (hi : idxField c = idxField d)
    (hr : rsvdField c = rsvdField d) : c = d := by
  apply BitVec.eq_of_getLsbD_eq
  intro j hj
  by_cases h8 : j < 8
  · simpa [opcodeField, h8] using congrArg (·.getLsbD j) ho
  · by_cases h16 : j < 16
    · simpa [idxField, show j - 8 < 8 by omega, show 8 + (j - 8) = j by omega] using
        congrArg (·.getLsbD (j - 8)) hi
    · simpa [rsvdField, show j - 16 < 16 by omega, show 16 + (j - 16) = j by omega] using
        congrArg (·.getLsbD (j - 16)) hr

/-- A command is determined by its opcode and its index field (30_encoding.md R64). -/
theorem commandOf_eq_some {op idx : BitVec 8} {i : Instr} (h : commandOf op idx = some i) :
    opcodeOf i = op ∧ (op ≠ 0x04 ∨ i = .round idx) := by
  unfold commandOf at h
  split at h <;> cases h <;> refine ⟨?_, ?_⟩ <;>
    simp_all [opcodeOf, BitVec.toNat_eq]

/-- A row of spec/opcode_table.json: a word `c` belongs to it if `c &&& mask = value`. -/
structure OpcodeRow where
  mask : Word32
  value : Word32
deriving DecidableEq, Repr

/-- The eight rows, in the table's order. -/
def opcodeRows : List OpcodeRow :=
  [⟨0xFFFFFFFF, 0x00000000⟩, ⟨0xFFFFFFFF, 0x00000001⟩, ⟨0xFFFFFFFF, 0x00000002⟩,
   ⟨0xFFFFFFFF, 0x00000003⟩, ⟨0xFFFF00FF, 0x00000004⟩, ⟨0xFFFFFFFF, 0x00000005⟩,
   ⟨0xFFFFFFFF, 0x00000006⟩, ⟨0xFFFFFFFF, 0x00000007⟩]

/-- No word belongs to two rows. -/
theorem opcodeRows_disjoint :
    opcodeRows.Pairwise fun x y => x.value &&& (x.mask &&& y.mask) ≠ y.value &&& (x.mask &&& y.mask) := by
  decide

end Sys2Proof
end

