-- ==== Sys2Proof/Laws/State.lean ====
section
/-! SUPPORT. One lemma per field for each shared update of State, so that no proof unfolds the update. -/

namespace Sys2Proof.Machine

section latch
variable (op : PendOp) (s : State)

@[simp] theorem latch_build : (latch op s).build = s.build := rfl
@[simp] theorem latch_a : (latch op s).a = s.a := rfl
@[simp] theorem latch_b : (latch op s).b = s.b := rfl
@[simp] theorem latch_r : (latch op s).r = s.r := rfl
@[simp] theorem latch_s : (latch op s).s = s.s := rfl
@[simp] theorem latch_err : (latch op s).err = s.err := rfl
@[simp] theorem latch_errCode : (latch op s).errCode = s.errCode := rfl
@[simp] theorem latch_pend : (latch op s).pend = some { op := op, a := s.a, b := s.b, k := s.s } := rfl
@[simp] theorem latch_inbox : (latch op s).inbox = s.inbox := rfl
@[simp] theorem latch_returned : (latch op s).returned = s.returned := rfl

end latch

section finishR
variable (v : Nat) (s : State)

@[simp] theorem finishR_build : (finishR v s).build = s.build := rfl
@[simp] theorem finishR_a : (finishR v s).a = s.a := rfl
@[simp] theorem finishR_b : (finishR v s).b = s.b := rfl
@[simp] theorem finishR_r : (finishR v s).r = fieldWord v := rfl
@[simp] theorem finishR_s : (finishR v s).s = s.s := rfl
@[simp] theorem finishR_err : (finishR v s).err = s.err := rfl
@[simp] theorem finishR_errCode : (finishR v s).errCode = s.errCode := rfl
@[simp] theorem finishR_pend : (finishR v s).pend = none := rfl
@[simp] theorem finishR_inbox : (finishR v s).inbox = s.inbox := rfl
@[simp] theorem finishR_returned : (finishR v s).returned = s.returned := rfl

end finishR

section finishS
variable (v : Nat) (s : State)

@[simp] theorem finishS_build : (finishS v s).build = s.build := rfl
@[simp] theorem finishS_a : (finishS v s).a = s.a := rfl
@[simp] theorem finishS_b : (finishS v s).b = s.b := rfl
@[simp] theorem finishS_r : (finishS v s).r = s.r := rfl
@[simp] theorem finishS_s : (finishS v s).s = fieldWord v := rfl
@[simp] theorem finishS_err : (finishS v s).err = s.err := rfl
@[simp] theorem finishS_errCode : (finishS v s).errCode = s.errCode := rfl
@[simp] theorem finishS_pend : (finishS v s).pend = none := rfl
@[simp] theorem finishS_inbox : (finishS v s).inbox = s.inbox := rfl
@[simp] theorem finishS_returned : (finishS v s).returned = s.returned := rfl

end finishS

section finishSR
variable (v : Nat) (s : State)

@[simp] theorem finishSR_build : (finishSR v s).build = s.build := rfl
@[simp] theorem finishSR_a : (finishSR v s).a = s.a := rfl
@[simp] theorem finishSR_b : (finishSR v s).b = s.b := rfl
@[simp] theorem finishSR_r : (finishSR v s).r = fieldWord v := rfl
@[simp] theorem finishSR_s : (finishSR v s).s = fieldWord v := rfl
@[simp] theorem finishSR_err : (finishSR v s).err = s.err := rfl
@[simp] theorem finishSR_errCode : (finishSR v s).errCode = s.errCode := rfl
@[simp] theorem finishSR_pend : (finishSR v s).pend = none := rfl
@[simp] theorem finishSR_inbox : (finishSR v s).inbox = s.inbox := rfl
@[simp] theorem finishSR_returned : (finishSR v s).returned = s.returned := rfl

end finishSR

section resetUnit
variable (s : State)

@[simp] theorem resetUnit_build : (resetUnit s).build = s.build := rfl
@[simp] theorem resetUnit_a : (resetUnit s).a = 0 := rfl
@[simp] theorem resetUnit_b : (resetUnit s).b = 0 := rfl
@[simp] theorem resetUnit_r : (resetUnit s).r = 0 := rfl
@[simp] theorem resetUnit_s : (resetUnit s).s = 0 := rfl
@[simp] theorem resetUnit_err : (resetUnit s).err = false := rfl
@[simp] theorem resetUnit_errCode : (resetUnit s).errCode = 0 := rfl
@[simp] theorem resetUnit_pend : (resetUnit s).pend = none := rfl
@[simp] theorem resetUnit_inbox : (resetUnit s).inbox = s.inbox := rfl
@[simp] theorem resetUnit_returned : (resetUnit s).returned = s.returned := rfl

end resetUnit

section queueCommand
variable (c : Word32) (s : State)

@[simp] theorem queueCommand_build : (queueCommand c s).build = s.build := rfl
@[simp] theorem queueCommand_a : (queueCommand c s).a = s.a := rfl
@[simp] theorem queueCommand_b : (queueCommand c s).b = s.b := rfl
@[simp] theorem queueCommand_r : (queueCommand c s).r = s.r := rfl
@[simp] theorem queueCommand_s : (queueCommand c s).s = s.s := rfl
@[simp] theorem queueCommand_err : (queueCommand c s).err = s.err := rfl
@[simp] theorem queueCommand_errCode : (queueCommand c s).errCode = s.errCode := rfl
@[simp] theorem queueCommand_pend : (queueCommand c s).pend = s.pend := rfl
@[simp] theorem queueCommand_inbox : (queueCommand c s).inbox = .access (.write 0x04 4 c) :: s.inbox := rfl
@[simp] theorem queueCommand_returned : (queueCommand c s).returned = s.returned := rfl

end queueCommand

section raiseError
variable (e : ErrorCode) (s : State)

@[simp] theorem raiseError_build : (raiseError e s).build = s.build := by
  unfold raiseError; split <;> simp [*]

@[simp] theorem raiseError_a : (raiseError e s).a = s.a := by
  unfold raiseError; split <;> simp [*]

@[simp] theorem raiseError_b : (raiseError e s).b = s.b := by
  unfold raiseError; split <;> simp [*]

@[simp] theorem raiseError_r : (raiseError e s).r = s.r := by
  unfold raiseError; split <;> simp [*]

@[simp] theorem raiseError_s : (raiseError e s).s = s.s := by
  unfold raiseError; split <;> simp [*]

@[simp] theorem raiseError_err : (raiseError e s).err = true := by
  unfold raiseError; split <;> simp [*]

@[simp] theorem raiseError_errCode : (raiseError e s).errCode = if s.err then s.errCode else errorNumber e := by
  unfold raiseError; split <;> simp [*]

@[simp] theorem raiseError_pend : (raiseError e s).pend = s.pend := by
  unfold raiseError; split <;> simp [*]

@[simp] theorem raiseError_inbox : (raiseError e s).inbox = s.inbox := by
  unfold raiseError; split <;> simp [*]

@[simp] theorem raiseError_returned : (raiseError e s).returned = s.returned := by
  unfold raiseError; split <;> simp [*]

end raiseError

section clearError
variable (v : Word32) (s : State)

@[simp] theorem clearError_build : (clearError v s).build = s.build := by
  unfold clearError; split <;> simp [*]

@[simp] theorem clearError_a : (clearError v s).a = s.a := by
  unfold clearError; split <;> simp [*]

@[simp] theorem clearError_b : (clearError v s).b = s.b := by
  unfold clearError; split <;> simp [*]

@[simp] theorem clearError_r : (clearError v s).r = s.r := by
  unfold clearError; split <;> simp [*]

@[simp] theorem clearError_s : (clearError v s).s = s.s := by
  unfold clearError; split <;> simp [*]

@[simp] theorem clearError_err : (clearError v s).err = (!v[1] && s.err) := by
  unfold clearError; split <;> simp [*]

@[simp] theorem clearError_errCode : (clearError v s).errCode = if v[1] then 0 else s.errCode := by
  unfold clearError; split <;> simp [*]

@[simp] theorem clearError_pend : (clearError v s).pend = s.pend := by
  unfold clearError; split <;> simp [*]

@[simp] theorem clearError_inbox : (clearError v s).inbox = s.inbox := by
  unfold clearError; split <;> simp [*]

@[simp] theorem clearError_returned : (clearError v s).returned = s.returned := by
  unfold clearError; split <;> simp [*]

end clearError

end Sys2Proof.Machine
end

