-- ==== Sys2Proof/Laws/Issue.lean ====
section
/-! SUPPORT. Everything issue can do (40_command.md R83), and so everything `exec` can. -/

namespace Sys2Proof.Machine

theorem busy_eq_false {s : State} : s.busy = false ↔ s.pend = none := by simp [State.busy]

theorem busy_eq_true {s : State} : s.busy = true ↔ s.pend ≠ none := by
  cases h : s.pend <;> simp [State.busy, h]

/-- An operand check fails only with `A_RANGE` or `B_RANGE`. -/
theorem operandError_eq_none {op : PendOp} {s : State} :
    operandError op s = none ↔
      (readsA op = true → s.a.toNat < s.build.P) ∧ (readsB op = true → s.b.toNat < s.build.P) := by
  unfold operandError
  split
  · simp_all
  · split <;> simp_all

/-- Issue of a command that latches: lost while busy, abandoned on an operand, or latched. -/
theorem issue_cases (op : PendOp) (s : State) :
    (s.pend ≠ none ∧ issue op s = raiseError .busy s) ∨
    (s.pend = none ∧ ∃ e, operandError op s = some e ∧ issue op s = raiseError e s) ∨
    (s.pend = none ∧ operandError op s = none ∧ issue op s = latch op s) := by
  unfold issue
  cases hb : s.busy
  · rw [busy_eq_false] at hb
    cases he : operandError op s <;> simp [hb]
  · rw [busy_eq_true] at hb
    simp [hb]

/-- Issue on an idle unit with operands in range latches. -/
theorem issue_of_ok {op : PendOp} {s : State} (hi : s.pend = none) (ho : operandError op s = none) :
    issue op s = latch op s := by
  simp [issue, State.busy, hi, ho]

/-- A word that does not decode changes `ERR` and `ERRCODE` only. -/
theorem rejectCommand_eq (e : ErrorCode) (s : State) : ∃ e', rejectCommand e s = raiseError e' s := by
  unfold rejectCommand
  split
  · exact ⟨_, rfl⟩
  · exact ⟨_, rfl⟩

/-- Every command answers a next state: an error is recorded, or (`nop`) nothing happens, or the command
is latched. -/
theorem exec_cases (i : Instr) (s : State) :
    ∃ t, exec i s = .next t ∧
      ((∃ e, t = raiseError e s) ∨ (i = .nop ∧ s.pend = none ∧ t = s) ∨
       (s.pend = none ∧ ∃ op, operandError op s = none ∧ t = latch op s)) := by
  have key : ∀ op, ((∃ e, issue op s = raiseError e s) ∨ (i = .nop ∧ s.pend = none ∧ issue op s = s) ∨
       (s.pend = none ∧ ∃ op', operandError op' s = none ∧ issue op s = latch op' s)) := by
    intro op
    obtain ⟨-, h⟩ | ⟨-, e, -, h⟩ | ⟨hi, ho, h⟩ := issue_cases op s
    · exact .inl ⟨_, h⟩
    · exact .inl ⟨_, h⟩
    · exact .inr (.inr ⟨hi, op, ho, h⟩)
  cases i with
  | nop =>
    refine ⟨_, rfl, ?_⟩
    cases hb : s.busy
    · exact .inr (.inl ⟨rfl, busy_eq_false.1 hb, by simp⟩)
    · exact .inl ⟨.busy, by simp⟩
  | round idx =>
    refine ⟨_, rfl, ?_⟩
    split
    · exact key _
    · exact .inl (rejectCommand_eq _ _)
  | _ => exact ⟨_, rfl, key _⟩

end Sys2Proof.Machine
end

