-- ==== Sys2Proof/Laws/Engine.lean ====
section
/-! SUPPORT. Everything a completion and a step can do (40_command.md R80, R85). -/

namespace Sys2Proof.Machine

section complete
variable (q : Pending) (s : State)

@[simp] theorem complete_build : (complete q s).build = s.build := by unfold complete; split <;> rfl
@[simp] theorem complete_a : (complete q s).a = s.a := by unfold complete; split <;> rfl
@[simp] theorem complete_b : (complete q s).b = s.b := by unfold complete; split <;> rfl
@[simp] theorem complete_err : (complete q s).err = s.err := by unfold complete; split <;> rfl
@[simp] theorem complete_errCode : (complete q s).errCode = s.errCode := by unfold complete; split <;> rfl
@[simp] theorem complete_pend : (complete q s).pend = none := by unfold complete; split <;> rfl
@[simp] theorem complete_inbox : (complete q s).inbox = s.inbox := by unfold complete; split <;> rfl
@[simp] theorem complete_returned : (complete q s).returned = s.returned := by
  unfold complete; split <;> rfl

end complete

theorem engineTurn_of_pend {s : State} {q : Pending} (h : s.pend = some q) :
    engineTurn s = complete q s := by simp [engineTurn, h]

theorem engineTurn_of_idle {s : State} (h : s.pend = none) : engineTurn s = s := by simp [engineTurn, h]

/-- A turn of the engine completes the pending command or does nothing. -/
theorem engineTurn_cases (s : State) :
    (s.pend = none ∧ engineTurn s = s) ∨ ∃ q, s.pend = some q ∧ engineTurn s = complete q s := by
  cases h : s.pend with
  | none => exact .inl ⟨rfl, engineTurn_of_idle h⟩
  | some q => exact .inr ⟨q, rfl, engineTurn_of_pend h⟩

/-- A host write other than a command changes `A`, `B`, or `ERR` and `ERRCODE`, or nothing. -/
theorem writeReg_cases (v : Word32) (s : State) (g : Reg) :
    (∃ k, g = .a k ∧ writeReg v s g = { s with a := setWord s.a k v }) ∨
    (∃ k, g = .b k ∧ writeReg v s g = { s with b := setWord s.b k v }) ∨
    (g = .status ∧ writeReg v s g = clearError v s) ∨
    writeReg v s g = s := by
  cases g <;> simp [writeReg]

/-- The unit has a transition for exactly the servable accesses (20_memory.md R45, R50). -/
theorem accessRefusal_eq_none (x : Access) : accessRefusal x = none ↔ Servable (.access x) := by
  unfold accessRefusal Servable
  split
  · simp
    omega
  · split
    · simp [*]
    · split <;> simp_all

/-- The offsets of the words of each 256-bit register (20_memory.md R41). -/
theorem regAt_words (k : Fin 8) :
    regAt (0x20 + 4 * k) = .a k ∧ regAt (0x40 + 4 * k) = .b k ∧ regAt (0x60 + 4 * k) = .r k ∧
      regAt (0x80 + 4 * k) = .s k ∧ regAt (0xA0 + 4 * k) = .modulus k := by
  revert k; decide

/-- Everything one step that answers a next state can do. -/
theorem step_cases {s t : State} (h : step s = .next t) :
    (s.inbox = [] ∧ t = engineTurn s) ∨
    (∃ rest, s.inbox = .engine :: rest ∧ t = engineTurn { s with inbox := rest }) ∨
    (∃ rest, s.inbox = .reset none :: rest ∧ t = resetUnit { s with inbox := rest }) ∨
    (∃ off n rest, s.inbox = .access (.read off n) :: rest ∧ accessRefusal (.read off n) = none ∧
      t = { s with inbox := rest, returned := readReg s (regAt off) :: s.returned }) ∨
    (∃ off n v rest, s.inbox = .access (.write off n v) :: rest ∧
      accessRefusal (.write off n v) = none ∧ regAt off ≠ .cmd ∧
      t = writeReg v { s with inbox := rest } (regAt off)) ∨
    (∃ off n c rest i, s.inbox = .access (.write off n c) :: rest ∧
      accessRefusal (.write off n c) = none ∧ regAt off = .cmd ∧ decode c = .ok i ∧
      exec i { s with inbox := rest } = .next t) ∨
    (∃ off n c rest e, s.inbox = .access (.write off n c) :: rest ∧
      accessRefusal (.write off n c) = none ∧ regAt off = .cmd ∧ decode c = .error e ∧
      t = rejectCommand e { s with inbox := rest }) := by
  cases hin : s.inbox with
  | nil =>
    simp only [step, nextTurn, hin] at h
    cases h
    exact .inl ⟨rfl, rfl⟩
  | cons ev rest =>
    refine .inr ?_
    cases ev with
    | engine =>
      simp only [step, nextTurn, hin] at h
      cases h
      exact .inl ⟨rest, rfl, rfl⟩
    | reset during =>
      cases during with
      | none =>
        simp only [step, nextTurn, hin] at h
        cases h
        exact .inr (.inl ⟨rest, rfl, rfl⟩)
      | some x => simp [step, nextTurn, hin] at h
    | access x =>
      simp only [step, nextTurn, hin, serveAccess] at h
      cases hr : accessRefusal x with
      | some why => simp [hr] at h
      | none =>
        simp only [hr] at h
        cases x with
        | read off n =>
          simp only at h
          cases h
          exact .inr (.inr (.inl ⟨off, n, rest, rfl, hr, rfl⟩))
        | write off n v =>
          simp only at h
          by_cases hc : regAt off = .cmd
          · simp only [hc] at h
            cases hd : decode v with
            | ok i =>
              simp only [hd] at h
              exact .inr (.inr (.inr (.inr (.inl ⟨off, n, v, rest, i, rfl, hr, hc, hd, h⟩))))
            | error e =>
              simp only [hd] at h
              cases h
              exact .inr (.inr (.inr (.inr (.inr ⟨off, n, v, rest, e, rfl, hr, hc, hd, rfl⟩))))
          · refine .inr (.inr (.inr (.inl ⟨off, n, v, rest, rfl, hr, hc, ?_⟩)))
            cases hg : regAt off <;> simp_all

/-- No steps lead to the state itself. -/
theorem reaches_zero {s t : State} : Reaches 0 s t ↔ t = s := by
  unfold Reaches
  constructor
  · intro h; cases h; rfl
  · rintro rfl; rfl

/-- A run is a first step and the rest. -/
theorem reaches_succ {n : Nat} {s t : State} :
    Reaches (n + 1) s t ↔ ∃ u, step s = .next u ∧ Reaches n u t := by
  unfold Reaches
  simp only [Host.Core.run]
  rw [show core.step s = step s from rfl]
  cases step s <;> simp

end Sys2Proof.Machine
end

