-- ==== Sys2Proof/Laws/Field.lean ====
section
/-! SUPPORT. Field results are below `P` (41_field.md R100, R101), and a register holds them exactly
(R103). -/

namespace Sys2Proof

theorem Build.Legal.P_pos {c : Build} (h : c.Legal) : 0 < c.P := h.prime.pos

namespace Machine

theorem addp_lt {p : Nat} (hp : 0 < p) (a b : Nat) : addp p a b < p := Nat.mod_lt _ hp

theorem mulp_lt {p : Nat} (hp : 0 < p) (a b : Nat) : mulp p a b < p := Nat.mod_lt _ hp

theorem pow17_lt {p : Nat} (hp : 0 < p) (x : Nat) : pow17 p x < p := mulp_lt hp _ _

theorem mimcRound_lt {c : Build} (hp : 0 < c.P) (x k : Nat) (i : Fin 61) : mimcRound c x k i < c.P :=
  pow17_lt hp _

theorem encrypt_lt {c : Build} (hp : 0 < c.P) (k x : Nat) : encrypt c k x < c.P := addp_lt hp _ _

theorem absorb_lt {c : Build} (hp : 0 < c.P) (s x : Nat) : absorb c s x < c.P := addp_lt hp _ _

/-- A register holds a natural below `P` exactly. -/
theorem fieldWord_toNat {c : Build} {v : Nat} (h : v < c.P) : (fieldWord v).toNat = v := by
  have := c.modulus.isLt
  simp only [fieldWord, BitVec.toNat_ofNat]
  exact Nat.mod_eq_of_lt (by unfold Build.P at h; omega)

end Machine

end Sys2Proof
end

