-- ==== Sys2Proof/Laws/PerInstr.lean ====
section
/-! SUPPORT. What holds of every command's encoding, one lemma per constructor. -/

namespace Sys2Proof.Laws.EncodeLayout

/-- Every encoding keeps `RSVD` 0 (30_encoding.md R63), has an opcode from 0 to 7 (R61), and has `IDX` 0
outside `round` (R62). -/
def Statement (i : Instr) : Prop :=
  rsvdField (encode i) = 0 ∧ (opcodeField (encode i)).toNat ≤ 7 ∧
    (opcodeField (encode i) ≠ 0x04 → idxField (encode i) = 0)

theorem nop : Statement .nop := ⟨rsvdField_encode _, by simp [opcodeOf], by simp [idxOf]⟩
theorem fadd : Statement .fadd := ⟨rsvdField_encode _, by simp [opcodeOf], by simp [idxOf]⟩
theorem fmul : Statement .fmul := ⟨rsvdField_encode _, by simp [opcodeOf], by simp [idxOf]⟩
theorem pow17 : Statement .pow17 := ⟨rsvdField_encode _, by simp [opcodeOf], by simp [idxOf]⟩
theorem round (idx : BitVec 8) : Statement (.round idx) :=
  ⟨rsvdField_encode _, by simp [opcodeOf], by simp [opcodeOf]⟩
theorem encrypt : Statement .encrypt := ⟨rsvdField_encode _, by simp [opcodeOf], by simp [idxOf]⟩
theorem hinit : Statement .hinit := ⟨rsvdField_encode _, by simp [opcodeOf], by simp [idxOf]⟩
theorem habsorb : Statement .habsorb := ⟨rsvdField_encode _, by simp [opcodeOf], by simp [idxOf]⟩

end Sys2Proof.Laws.EncodeLayout
end

