-- ==== Sys2Proof/Laws/Words.lean ====
section
/-! SUPPORT. Writing one 32-bit word of a 256-bit register (20_memory.md R42, R47). -/

namespace Sys2Proof.Machine

/-- The bits of a register after a word write. -/
theorem getLsbD_setWord (v : Word256) (k : Fin 8) (w : Word32) (j : Nat) (hj : j < 256) :
    (setWord v k w).getLsbD j =
      if 32 * k.val ≤ j ∧ j < 32 * k.val + 32 then w.getLsbD (j - 32 * k.val) else v.getLsbD j := by
  have mask : ∀ n : Nat, (0xFFFFFFFF#256).getLsbD n = decide (n < 32) := by
    intro n
    rw [show (0xFFFFFFFF#256) = (BitVec.allOnes 32).zeroExtend 256 by decide]
    simp only [BitVec.getLsbD_setWidth, BitVec.getLsbD_allOnes]
    by_cases h : n < 32 <;> simp [h]
    omega
  unfold setWord
  simp only [BitVec.getLsbD_or, BitVec.getLsbD_and, BitVec.getLsbD_not, BitVec.getLsbD_shiftLeft,
    BitVec.getLsbD_setWidth, mask, hj, decide_true, Bool.true_and]
  by_cases h1 : j < 32 * k.val
  · simp [h1, show ¬ 32 * k.val ≤ j by omega]
  · by_cases h2 : j < 32 * k.val + 32
    · simp [h1, h2, show 32 * k.val ≤ j by omega, show j - 32 * k.val < 32 by omega,
        show j - 32 * k.val < 256 by omega]
    · have : w.getLsbD (j - 32 * k.val) = false := BitVec.getLsbD_of_ge _ _ (by omega)
      simp [h1, h2, show ¬ j - 32 * k.val < 32 by omega, this]

@[simp] theorem getWord_setWord_self (v : Word256) (k : Fin 8) (w : Word32) :
    getWord (setWord v k w) k = w := by
  unfold getWord
  apply BitVec.eq_of_getLsbD_eq
  intro j hj
  rw [BitVec.getLsbD_extractLsb', getLsbD_setWord _ _ _ _ (by omega)]
  simp [hj]

theorem getWord_setWord_ne (v : Word256) {k l : Fin 8} (w : Word32) (h : l ≠ k) :
    getWord (setWord v k w) l = getWord v l := by
  unfold getWord
  apply BitVec.eq_of_getLsbD_eq
  intro j hj
  have hv : l.val ≠ k.val := fun e => h (Fin.ext e)
  rw [BitVec.getLsbD_extractLsb', BitVec.getLsbD_extractLsb', getLsbD_setWord _ _ _ _ (by omega)]
  rw [if_neg (by omega)]

/-- Two registers with the same eight words are equal. -/
theorem eq_of_getWord_eq {v w : Word256} (h : ∀ k, getWord v k = getWord w k) : v = w := by
  apply BitVec.eq_of_getLsbD_eq
  intro j hj
  have e := congrArg (fun x => x.getLsbD (j % 32)) (h ⟨j / 32, by omega⟩)
  simpa [getWord, BitVec.getLsbD_extractLsb', Nat.mod_lt, show 32 * (j / 32) + j % 32 = j by omega] using e

end Sys2Proof.Machine
end

