-- ==== Sys2Proof/Tests/Slice0.lean ====
section
/-! SUPPORT. Tests with the vectors of 95_test_vectors.md (V<n>, W<n>), and for each statement with hypotheses
a witness that meets them. TS and T256 are the test configurations of that file, not the hardware's. -/

namespace Sys2Proof.Tests

open Sys2Proof.Machine

-- One kernel evaluation at a time: run at once, the tests go over the check's limit on threads.
set_option Elab.async false

/-- Config TS: `P = 2^31 - 1`, `RC[i] = i`. -/
def ts : Build := ⟨2147483647, Vector.ofFn fun i => BitVec.ofNat 256 i.val, 0⟩

/-- Config T256: `P = 2^256 - 189`, `RC[i] = P - 1 - i`. -/
def t256 : Build :=
  ⟨BitVec.ofNat 256 (2 ^ 256 - 189), Vector.ofFn fun i => BitVec.ofNat 256 (2 ^ 256 - 189 - 1 - i.val), 0⟩

/-- An idle unit with no error. -/
def idle (c : Build) (a b s : Nat) (inbox : List Event) : State where
  build := c
  a := BitVec.ofNat 256 a
  b := BitVec.ofNat 256 b
  r := 0
  s := BitVec.ofNat 256 s
  err := false
  errCode := 0
  pend := none
  inbox := inbox
  returned := []

/-- The same unit with a command pending on its operands. -/
def busyWith (op : PendOp) (s : State) : State := latch op s

/-- The same unit with an error recorded. -/
def failed (code : BitVec 4) (s : State) : State := { s with err := true, errCode := code }

/-- The state a step answers, or the state it was in. -/
def after (s : State) : State :=
  match step s with
  | .next t => t
  | .fault _ => s
  | .refused _ => s

/-- The refusal of a step. -/
def refusal (s : State) : Option Refusal :=
  match step s with
  | .next _ => none
  | .fault _ => none
  | .refused why => some why

/-! ### Well-formedness, decoding and encoding -/

theorem test_wellFormed_refuses_round_61 : (Instr.round 61).wellFormed = false := by decide
theorem test_wellFormed_refuses_round_255 : (Instr.round 255).wellFormed = false := by decide
theorem test_wellFormed_takes_round_60 : (Instr.round 60).wellFormed = true := by decide

/-- 30_encoding.md R64, word by word. -/
theorem test_decode_nop : decode 0b00000000000000000000000000000000 = .ok .nop := by decide
theorem test_decode_fadd : decode 0b00000000000000000000000000000001 = .ok .fadd := by decide
theorem test_decode_fmul : decode 0b00000000000000000000000000000010 = .ok .fmul := by decide
theorem test_decode_pow17 : decode 0b00000000000000000000000000000011 = .ok .pow17 := by decide
theorem test_decode_round_60 : decode 0b00000000000000000011110000000100 = .ok (.round 60) := by decide
theorem test_decode_encrypt : decode 0b00000000000000000000000000000101 = .ok .encrypt := by decide
theorem test_decode_hinit : decode 0b00000000000000000000000000000110 = .ok .hinit := by decide
theorem test_decode_habsorb : decode 0b00000000000000000000000000000111 = .ok .habsorb := by decide

/-- V72, V74, V75, V76, V78, V80, V81. -/
theorem test_decode_errors :
    decode 0x00003D04 = .error .roundIndex ∧ decode 0x00013D04 = .error .rsvdField ∧
    decode 0x00000101 = .error .rsvdField ∧ decode 0x00000100 = .error .rsvdField ∧
    decode 0x80000007 = .error .rsvdField ∧ decode 0x00000008 = .error .illegalOp ∧
    decode 0x000001FF = .error .illegalOp := by decide

/-! ### The functions: W3, W4, W7 -/

theorem test_encrypt_ts : encrypt ts 0 65 = 1728155405 := by decide +kernel
theorem test_encrypt_t256 : encrypt t256 5 7 =
    0x5041096f48695c5d4cd1e5d6a24091aac1f634da91161bc07ed3c8beefe09866 := by decide +kernel
theorem test_hash_ts : hashSeq ts [65, 66, 67] = 918999087 := by decide +kernel
theorem test_hash_t256 : hashSeq t256 [65, 66, 67] =
    0xfdd01eb83abc8c2792a7316f54c4f0ccec9946a04c4df1cb0df578488ddd543e := by decide +kernel

/-! ### Completions, one engine step each -/

/-- V5: the sum is reduced once. -/
theorem test_fadd_ts : (after (busyWith .fadd (idle ts 1000000000 1500000000 0 []))).r = 352516353 := by
  decide +kernel
/-- V19: the carry out of word 7 is folded back. -/
theorem test_fadd_t256 : (after (busyWith .fadd (idle t256 (2 ^ 255) (2 ^ 255) 0 []))).r = 189 := by
  decide +kernel
/-- V8. -/
theorem test_fmul_ts : (after (busyWith .fmul (idle ts 123456789 987654321 0 []))).r = 2137109934 := by
  decide +kernel
/-- V22: the 512-bit product. -/
theorem test_fmul_t256 : (after (busyWith .fmul (idle t256 (2 ^ 128) (2 ^ 128) 0 []))).r = 189 := by
  decide +kernel
/-- V15, with `B >= P`. -/
theorem test_pow17_ts : (after (busyWith .pow17 (idle ts 65 (2 ^ 256 - 1) 0 []))).r = 1168778978 := by
  decide +kernel
/-- V26. -/
theorem test_pow17_t256 : (after (busyWith .pow17 (idle t256 (2 ^ 16) 0 0 []))).r = 12386304 := by
  decide +kernel
/-- V33: the last round constant. -/
theorem test_round_60_ts : (after (busyWith (.round 60) (idle ts 1 2 0 []))).r = 1559464361 := by
  decide +kernel
/-- V46. -/
theorem test_round_60_t256 : (after (busyWith (.round 60) (idle t256 1 2 0 []))).r =
    0xfffffffffffffffffffffffffffffffffffffff3fe7a773d4933b930f745ff43 := by decide +kernel
/-- V39: keyed by `B`, not by `A`. -/
theorem test_encrypt_key_is_b : (after (busyWith .encrypt (idle ts 0 1 0 []))).r = 13220409 := by
  decide +kernel
/-- V41: `S` stays. -/
theorem test_encrypt_keeps_s : (after (busyWith .encrypt (idle ts 7 5 9 []))).r = 1627819721 ∧
    (after (busyWith .encrypt (idle ts 7 5 9 []))).s = 9 := by decide +kernel
/-- V56. -/
theorem test_hinit_clears_s : (after (busyWith .hinit (idle ts 0 0 1728155470 []))).s = 0 := by decide +kernel
/-- V59: `S` and `R`. -/
theorem test_habsorb_ts : (after (busyWith .habsorb (idle ts 66 0 1728155470 []))).s = 1634132184 ∧
    (after (busyWith .habsorb (idle ts 66 0 1728155470 []))).r = 1634132184 := by decide +kernel
/-- V64. -/
theorem test_habsorb_t256 : (after (busyWith .habsorb (idle t256 66 0
    0xdf456c6506f7dc8b989683b60a41ea95cf16b48544c5e9bcd1c4ab387f28c46c []))).s =
    0x1829b5e5d4f4411f4f9cc9d0ffe6b4855561f993ba6a65e06b4302ed2d51b701 := by decide +kernel

/-! ### Issue, errors and `STATUS`, one step each -/

/-- `STATUS` after a word is written to `CMD`. -/
def statusAfter (c : Word32) (s : State) : Word32 := statusWord (after (queueCommand c s))

/-- V66: `nop` is not latched. -/
theorem test_nop_not_latched : statusAfter 0x00000000 (idle ts 0 0 0 []) = 0x00000000 := by decide +kernel
/-- V71, V72: the last legal round index, and the first illegal one. -/
theorem test_round_index_bound : statusAfter 0x00003C04 (idle ts 0 0 0 []) = 0x00000001 ∧
    statusAfter 0x00003D04 (idle ts 0 0 0 []) = 0x00000042 := by decide +kernel
/-- V84: `A` is checked before `B`. -/
theorem test_a_checked_first :
    statusAfter 0x00000002 (idle ts 2147483647 2147483647 0 []) = 0x00000052 := by decide +kernel
/-- V87. -/
theorem test_b_range : statusAfter 0x00000104 (idle ts 0 2147483647 0 []) = 0x00000062 := by decide +kernel
/-- V89, V90, V91: operands that are not read are not checked. -/
theorem test_unread_operands_unchecked :
    statusAfter 0x00000007 (idle ts 0 2147483647 0 []) = 0x00000001 ∧
    statusAfter 0x00000006 (idle ts 2147483647 2147483647 0 []) = 0x00000001 ∧
    statusAfter 0x00000000 (idle ts 2147483647 0 0 []) = 0x00000000 := by decide +kernel
/-- V97, V98: the busy check is first. -/
theorem test_busy_first : statusAfter 0x00000000 (busyWith .pow17 (idle ts 2 0 0 [])) = 0x00000013 ∧
    statusAfter 0xFFFFFFFF (busyWith .pow17 (idle ts 2 0 0 [])) = 0x00000013 := by decide +kernel
/-- V99: the first code is kept. -/
theorem test_first_code_kept : statusAfter 0x00000008 (failed 5 (idle ts 0 0 0 [])) = 0x00000052 := by
  decide +kernel
/-- V101, V103: only bit 1 clears, and it clears the code. -/
theorem test_error_clear :
    statusWord (after (failed 5 (idle ts 0 0 0 [hostWrite 0x08 0x00000001]))) = 0x00000052 ∧
    statusWord (after (failed 6 (idle ts 0 0 0 [hostWrite 0x08 0xFFFFFFFF]))) = 0x00000000 := by
  decide +kernel
/-- V104: the clear leaves a pending command. -/
theorem test_error_clear_while_busy :
    statusWord (after (failed 1 (busyWith .pow17 (idle ts 2 0 0 [hostWrite 0x08 0x00000002])))) =
      0x00000001 := by decide +kernel

/-! ### The register block and reset, one step each -/

/-- V105, V107. -/
theorem test_info_and_cmd : readReg (idle ts 0 0 0 []) (regAt 0x00) = 0x0000113D ∧
    readReg (idle ts 0 0 0 []) (regAt 0x04) = 0 := by decide +kernel
/-- V111: `MOD`, word 0 first. -/
theorem test_mod_words : readReg (idle t256 0 0 0 []) (regAt 0xA0) = 0xFFFFFF43 ∧
    readReg (idle t256 0 0 0 []) (regAt 0xBC) = 0xFFFFFFFF := by decide +kernel
/-- V114: one word of `A`. -/
theorem test_a_word_write : (after (idle ts 7 0 0 [hostWrite 0x24 0xDEADBEEF])).a = 0xDEADBEEF00000007 := by
  decide +kernel
/-- V115: a write to `A` while a command is pending. -/
theorem test_write_while_busy : (after (after (busyWith .fadd (idle ts 1 2 0 [hostWrite 0x20 0x5])))).r = 3 := by
  decide +kernel
/-- V117. -/
theorem test_bad_accesses_refused :
    refusal (idle ts 0 0 0 [.access (.read 0x20 1)]) = some .accessWidth ∧
    refusal (idle ts 0 0 0 [.access (.write 0x22 4 0)]) = some .accessMisaligned ∧
    refusal (idle ts 0 0 0 [.access (.read 0x100 4)]) = some .accessOutsideBlock ∧
    refusal (idle ts 0 0 0 [.reset (some (.read 0x20 4))]) = some .accessDuringReset := by decide +kernel
/-- V119: reset abandons a pending command. -/
theorem test_reset_abandons :
    (after (busyWith .encrypt (idle ts 1 2 9 [.reset none]))).pend = none ∧
    (after (busyWith .encrypt (idle ts 1 2 9 [.reset none]))).s = 0 := by decide +kernel
/-- 70_reset_and_hazards.md R187: `"A" = 65`, and the first byte is the most significant. -/
theorem test_byte_decoder : fieldOfBytes 2147483647 [0x41] = 65 ∧ fieldOfBytes 2147483647 [0x01, 0x02] = 258 := by
  decide

/-! ### Witnesses: each statement's hypotheses are met, clause by clause -/

/-- A small legal configuration for the witnesses: `P = 101`, `RC[i] = i`. -/
def small : Build := ⟨101, Vector.ofFn fun i => BitVec.ofNat 256 i.val, 0x300⟩

theorem small_legal : small.Legal where
  prime := (by norm_num : Nat.Prime 101)
  three_le := by decide
  coprime := by decide +kernel
  constants_lt := by decide +kernel
  base_aligned := rfl

theorem witness_DecodeTestsInOrder :
    7 < (0x00000008 : Word32).toNat % 0x100 ∧
    ((0x00010007 : Word32).toNat % 0x100 ≤ 7 ∧ (0x00010007 : Word32).toNat / 0x10000 ≠ 0) ∧
    ((0x00000101 : Word32).toNat % 0x100 ≠ 4 ∧ (0x00000101 : Word32).toNat / 0x100 % 0x100 ≠ 0) ∧
    ((0x00003D04 : Word32).toNat % 0x100 = 4 ∧ 60 < (0x00003D04 : Word32).toNat / 0x100 % 0x100) ∧
    ((0x00003C04 : Word32).toNat % 0x100 = 4 ∧ (0x00003C04 : Word32).toNat / 0x100 % 0x100 ≤ 60) := by decide

/-- For StepRunsDecodedCommand, IssueChecksInOrder, LowestApplicableErrorWins and the `CMD` clause of
HostWriteChangesMappedRegister: a word that decodes and one that does not. -/
theorem witness_command_write : ∃ (s : State) (c : Word32) (rest : List Event), s.inbox = hostWrite 0x04 c :: rest ∧ s.pend = none ∧
    s.err = false ∧ decode c = .ok .fadd :=
  ⟨idle small 1 2 0 [hostWrite 0x04 0x00000001], 0x00000001, [], rfl, rfl, rfl, rfl⟩

theorem witness_bad_command_write : ∃ (s : State) (c : Word32) (rest : List Event), s.inbox = hostWrite 0x04 c :: rest ∧ s.pend = none ∧
    s.err = false ∧ decode c = .error .roundIndex :=
  ⟨idle small 1 2 0 [hostWrite 0x04 0x00003D04], 0x00003D04, [], rfl, rfl, rfl, rfl⟩

theorem witness_command_write_while_busy : ∃ (s : State) (c : Word32) (rest : List Event), s.inbox = hostWrite 0x04 c :: rest ∧ s.pend ≠ none :=
  ⟨busyWith .fadd (idle small 1 2 0 [hostWrite 0x04 0]), 0, [], rfl, by decide⟩

theorem witness_FetchWordRunsCommand : (Instr.round 60).WellFormed ∧ Instr.habsorb.WellFormed := by decide

theorem witness_OnlyBadAccessesRefused :
    (∃ e, ¬ Servable e) ∧ Servable (hostRead 0xFC) ∧ Servable .engine ∧ Servable (.reset none) :=
  ⟨⟨hostRead 0x100, by simp [Servable, hostRead, accessOff, accessBytes]⟩,
    by simp [Servable, hostRead, accessOff, accessBytes], trivial, rfl⟩

theorem witness_AccessDuringResetRefused :
    (idle small 0 0 0 [.reset (some (.read 0x20 4))]).inbox = [.reset (some (.read 0x20 4))] := rfl

theorem witness_ResetStepSetsEveryRegister :
    (busyWith .encrypt (idle small 1 2 9 [.reset none])).inbox = [.reset none] := rfl

/-- The boundary offsets of each clause of HostReadReturnsMappedWord. -/
theorem witness_HostReadReturnsMappedWord :
    (∀ off ∈ [0x00, 0x04, 0x08, 0x0C, 0x1C, 0x20, 0x3C, 0x40, 0x5C, 0x60, 0x7C, 0x80, 0x9C, 0xA0, 0xBC, 0xC0, 0xFC],
      (idle small 0 0 0 [hostRead off]).inbox = [hostRead off] ∧ off % 4 = 0 ∧ off < 0x100) ∧
    (0x3C = 0x20 + 4 * (7 : Fin 8).val ∧ 0xBC = 0xA0 + 4 * (7 : Fin 8).val) := by decide +kernel

/-- The boundary offsets of each clause of HostWriteChangesMappedRegister. -/
theorem witness_HostWriteChangesMappedRegister :
    ∀ off ∈ [0x00, 0x04, 0x08, 0x0C, 0x1C, 0x20, 0x3C, 0x40, 0x5C, 0x60, 0xFC],
      (idle small 0 0 0 [hostWrite off 2]).inbox = [hostWrite off 2] ∧ off % 4 = 0 ∧ off < 0x100 := by
  decide +kernel

theorem witness_ErrorClearWritesErrOnly :
    (failed 5 (idle small 0 0 0 [hostWrite 0x08 2])).inbox = [hostWrite 0x08 2] ∧
    readReg (failed 5 (idle small 0 0 0 [hostWrite 0x08 2])) .status = 0x00000052 ∧
    (2 : Word32)[1] = true ∧ (1 : Word32)[1] = false := by decide +kernel

theorem idle_inv (a b s : Nat) (inbox : List Event) (h : s < small.P) : (idle small a b s inbox).Inv where
  legal := small_legal
  r_lt := (by decide +kernel : 0 < small.P)
  s_lt := by
    have hp : small.P < 2 ^ 256 := by decide +kernel
    simp only [idle, BitVec.toNat_ofNat]
    rwa [Nat.mod_eq_of_lt (by omega)]
  code_zero := by simp [idle]
  code_le := by simp [idle]
  pend_ok := by simp [idle]

/-- For StepKeepsUnitInvariant and the invariant clause of ErrorClearWritesErrOnly. -/
theorem witness_StepKeepsUnitInvariant : ∃ s t : State, s.Inv ∧ s.err = false ∧ step s = .next t :=
  ⟨idle small 1 2 3 [], _, idle_inv 1 2 3 [] (by decide +kernel), rfl, rfl⟩

theorem witness_EightWritesLoadAnOperand :
    (idle small 0 0 0 ((AsmLine.ldA 5).events ++ [])).inbox = (AsmLine.ldA 5).events ++ [] ∧
    (idle small 0 0 0 ((AsmLine.ldB 5).events ++ [])).inbox = (AsmLine.ldB 5).events ++ [] := ⟨rfl, rfl⟩

theorem witness_BytesOfWordsAreLittleEndian : (idle small 0 0 0 []).build.Legal ∧
    0x3FC = small.base + 0xFC ∧ 0xFC % 4 = 0 ∧ 0xFC < 0x100 ∧ 0x2FF < small.base ∧ small.base + 0x100 ≤ 0x400 :=
  ⟨small_legal, rfl, rfl, by decide, by decide, by decide⟩

theorem witness_IllegalConfigurationRefused : small.Legal ∧ ¬ (⟨4, Vector.replicate 61 0, 0⟩ : Build).Legal :=
  ⟨small_legal, fun h => absurd (show Nat.Prime 4 from h.prime) (by norm_num)⟩

/-- Each cause of LowestApplicableErrorWins and ErrorsArePrecise applies somewhere. -/
theorem witness_causes :
    CauseApplies (busyWith .fadd (idle small 1 2 0 [])) 0 .busy ∧
    CauseApplies (idle small 0 0 0 []) 0x00000008 .illegalOp ∧
    CauseApplies (idle small 0 0 0 []) 0x00000100 .rsvdField ∧
    CauseApplies (idle small 0 0 0 []) 0x00003D04 .roundIndex ∧
    CauseApplies (idle small 101 0 0 []) 0x00000007 .aRange ∧
    CauseApplies (idle small 0 101 0 []) 0x00000005 .bRange := by
  simp only [CauseApplies]
  decide +kernel

/-- The second clause of ErrorsArePrecise: a step with `ERR = 1` that is no `CMD` write. -/
theorem witness_ErrorsArePrecise_other_step : ∃ s t : State, step s = .next t ∧
    (∀ c rest, s.inbox ≠ hostWrite 0x04 c :: rest) ∧ t.err = true :=
  ⟨failed 5 (idle small 0 0 0 []), _, rfl, by simp [failed, idle], rfl⟩

/-- For the clauses of the command rules: busy; `A` out of range; `A` in range and `B` out; both in range;
`IDX` 60 and 61. -/
theorem witness_command_rules :
    (busyWith .fadd (idle small 1 2 0 [])).pend ≠ none ∧
    ((idle small 101 0 0 []).pend = none ∧ small.P ≤ (idle small 101 0 0 []).a.toNat) ∧
    ((idle small 100 101 0 []).a.toNat < small.P ∧ small.P ≤ (idle small 100 101 0 []).b.toNat) ∧
    ((idle small 100 100 0 []).a.toNat < small.P ∧ (idle small 100 100 0 []).b.toNat < small.P) ∧
    ((60 : BitVec 8).toNat = (60 : Fin 61).val ∧ 60 < (61 : BitVec 8).toNat) := by decide +kernel

/-- For the command rules' encoding clauses: a word of each opcode with another field not 0. -/
theorem witness_reserved_words :
    (∀ k ∈ [0x00, 0x01, 0x02, 0x03, 0x05, 0x06, 0x07],
      opcodeField (BitVec.ofNat 32 (0x100 + k)) = BitVec.ofNat 8 k ∧ BitVec.ofNat 32 (0x100 + k) ≠ BitVec.ofNat 32 k) ∧
    (opcodeField 0x00010004 = 0x04 ∧ rsvdField 0x00010004 ≠ 0) ∧
    (opcodeField 0x00003D04 = 0x04 ∧ rsvdField 0x00003D04 = 0 ∧ 60 < (idxField 0x00003D04).toNat) := by
  decide +kernel

/-- For EncryptRule and HabsorbRule: the accumulator sequence exists. -/
theorem witness_accumulator : ∃ acc : Nat → Nat, acc 0 = (idle small 7 5 5 []).a.toNat ∧
    ∀ i : Fin 61, acc (i + 1) = (acc i + (idle small 7 5 5 []).b.toNat + small.RC i) ^ 17 % small.P :=
  ⟨fun n => Nat.rec (idle small 7 5 5 []).a.toNat
      (fun m x => if h : m < 61 then (x + (idle small 7 5 5 []).b.toNat + small.RC ⟨m, h⟩) ^ 17 % small.P else 0) n,
    rfl, fun i => by simp only [i.isLt, dite_true]⟩

/-- For IssueFrame: a command that latches, one that is abandoned, one with `ERR = 1`, one while busy. -/
theorem witness_IssueFrame :
    (∃ t, exec .fadd (idle small 1 2 0 []) = .next t ∧ t.pend ≠ (idle small 1 2 0 []).pend) ∧
    (∃ t, exec .hinit (failed 5 (busyWith .fadd (idle small 1 2 0 []))) = .next t ∧ t.err = true) :=
  ⟨⟨_, rfl, by decide +kernel⟩, ⟨_, rfl, by decide +kernel⟩⟩

/-- For CompletionFrame and ResultsDependOnLatchedOperands: pending records in states that differ. -/
theorem witness_pending : ∃ (s t : State) (q : Pending), s.pend = some q ∧ t.pend = some q ∧
    s.build.modulus = t.build.modulus ∧ s.build.constants = t.build.constants ∧ s.build.base ≠ t.build.base ∧
    s.a ≠ t.a ∧ q.op = .habsorb :=
  ⟨busyWith .habsorb (idle small 1 2 3 []),
    { busyWith .habsorb (idle small 1 2 3 []) with build := { small with base := 0x400 }, a := 9 }, _, rfl, rfl, rfl,
    rfl, by decide, by decide, rfl⟩

theorem witness_hinit_pending : ∃ (s : State) (q : Pending), s.pend = some q ∧ q.op = .hinit :=
  ⟨busyWith .hinit (idle small 1 2 3 []), _, rfl, rfl⟩

theorem witness_ConfigurationNeverChanges : Reaches 1 (idle small 1 2 3 []) (idle small 1 2 3 []) := rfl

/-- `S` and `R` do change: at a completion and at reset. -/
theorem witness_ChainingStateWrittenOnlyByHash :
    (after (busyWith .hinit (idle small 0 0 9 []))).s ≠ (busyWith .hinit (idle small 0 0 9 [])).s ∧
    (after (idle small 0 0 9 [.reset none])).s ≠ (idle small 0 0 9 [.reset none]).s := by decide +kernel

theorem witness_ResultWrittenOnlyAtCompletion :
    (after (busyWith .fadd (idle small 1 2 0 []))).r ≠ (busyWith .fadd (idle small 1 2 0 [])).r := by decide +kernel

theorem witness_OperandsWrittenOnlyByHost :
    (after (idle small 0 0 0 [hostWrite 0x3C 1])).a ≠ (idle small 0 0 0 [hostWrite 0x3C 1]).a ∧
    (after (idle small 0 0 0 [hostWrite 0x5C 1])).b ≠ (idle small 0 0 0 [hostWrite 0x5C 1]).b ∧
    (after (idle small 1 1 0 [.reset none])).a ≠ (idle small 1 1 0 [.reset none]).a := by decide +kernel

theorem witness_ErrChangesOnlyByRaiseAndClear :
    (after (idle small 0 0 0 [hostWrite 0x04 0x00000008])).err = true ∧
    (after (failed 5 (idle small 0 0 0 [hostWrite 0x08 2]))).err = false ∧
    (after (failed 5 (idle small 0 0 0 [.reset none]))).err = false := by decide +kernel

theorem witness_BusyChangesOnlyByIssueAndCompletion :
    (after (idle small 1 2 0 [hostWrite 0x04 0x00000001])).pend ≠ none ∧
    (after (busyWith .fadd (idle small 1 2 0 []))).pend = none := by decide +kernel

theorem witness_PendingResultsNotVisible : ∃ s t : State, 1 ≤ s.inbox.length ∧
    (∀ e ∈ s.inbox.take 1, ∃ x, e = .access x) ∧ Reaches 1 s t ∧ s.pend ≠ none :=
  ⟨busyWith .fadd (idle small 1 2 0 [hostRead 0x60]), _, by decide,
    by intro e he; exact ⟨.read 0x60 4, by simpa [busyWith, latch, idle, hostRead] using he⟩, rfl, by decide⟩

theorem witness_StatusReadShowsCompletion : (idle small 0 0 0 [hostRead 0x08]).inbox = [hostRead 0x08] := rfl

theorem witness_EveryCommandCompletes :
    (∀ e ∈ (busyWith .fadd (idle small 1 2 0 [hostRead 0x08, .engine])).inbox, Servable e) ∧
    (busyWith .fadd (idle small 1 2 0 [hostRead 0x08, .engine])).pend ≠ none := by
  refine ⟨?_, by decide⟩
  intro e he
  simp only [busyWith, latch, idle, List.mem_cons, List.not_mem_nil, or_false] at he
  obtain rfl | rfl := he
  · exact ⟨rfl, by decide, by decide⟩
  · trivial

theorem witness_CleanRunRaisedNoError : ∃ t, CleanRun 1 (idle small 1 2 0 [hostWrite 0x04 0x00000001]) t :=
  ⟨_, rfl, by decide +kernel, by decide⟩

theorem witness_FieldSumReducesOnce : 100 < 101 ∧ 1 < 101 := by decide

theorem witness_EncryptIsBijection : small.Legal ∧ 100 < small.P := ⟨small_legal, by decide +kernel⟩

/-- For EncryptEqualsRoundsAndFadd and AbsorbWithoutChainingState. -/
theorem witness_host_sequences : (idle small 7 5 0 []).build.Legal ∧ (idle small 7 5 0 []).pend = none ∧
    (idle small 7 5 0 []).a.toNat < small.P ∧ (idle small 7 5 0 []).b.toNat < small.P :=
  ⟨small_legal, rfl, by decide +kernel, by decide +kernel⟩

/-- For HashProtocolReadsHash: the empty sequence and a sequence of one element below `P`. -/
theorem witness_HashProtocolReadsHash : small.Legal ∧
    (idle small 0 0 0 ((AsmLine.hash 1 []).events ++ [])).pend = none ∧
    (idle small 0 0 0 ((AsmLine.hash 1 [(65, 2)]).events ++ [])).inbox = (AsmLine.hash 1 [(65, 2)]).events ++ [] ∧
    (65 : Word256).toNat < small.P :=
  ⟨small_legal, rfl, rfl, by decide +kernel⟩

end Sys2Proof.Tests
end

-- The cause of the error a `CMD` write records, and what can change `ERR`.
section
namespace Sys2Proof.Machine

/-! ### The fields of a command word as numbers, and what decoding says of them -/

theorem opcodeField_toNat (c : Word32) : (opcodeField c).toNat = c.toNat % 0x100 := by
  simp [opcodeField]

theorem idxField_toNat (c : Word32) : (idxField c).toNat = c.toNat / 0x100 % 0x100 := by
  simp [idxField, Nat.shiftRight_eq_div_pow]

theorem rsvdField_toNat (c : Word32) : (rsvdField c).toNat = c.toNat / 0x10000 := by
  have hc : c.toNat < 2 ^ 32 := c.isLt
  simp only [rsvdField, BitVec.extractLsb'_toNat, Nat.shiftRight_eq_div_pow]
  omega

/-- An opcode names no command exactly above 0x07 (30_encoding.md R61). -/
theorem commandOf_eq_none {op idx : BitVec 8} : commandOf op idx = none ↔ 7 < op.toNat := by
  unfold commandOf
  split
  case h_9 => simp_all; omega
  all_goals simp [*]

/-- A word that decodes carries its command's opcode, and its command is well formed. -/
theorem decode_ok {c : Word32} {i : Instr} (h : decode c = .ok i) :
    (opcodeOf i).toNat = c.toNat % 0x100 ∧ i.WellFormed := by
  unfold decode at h
  split at h
  · cases h
  · next j hj =>
    split_ifs at h with hrsvd hidx
    cases h
    obtain ⟨hop, hround⟩ := commandOf_eq_some hj
    refine ⟨by rw [hop, opcodeField_toNat], ?_⟩
    cases i with
    | round idx =>
      rw [← hop] at hround hidx
      obtain rfl : idx = idxField c := by simpa [opcodeOf] using hround
      exact decide_eq_true (by simpa [opcodeOf] using hidx)
    | _ => rfl

/-- The error a word is rejected with has its cause in the word (60_exceptions.md R162, codes 2 to 4). -/
theorem causeApplies_of_decode_error {c : Word32} {e : ErrorCode} (s : State) (h : decode c = .error e) :
    CauseApplies s c e := by
  unfold decode at h
  split at h
  · next hnone =>
    cases h
    simpa [CauseApplies, opcodeField_toNat] using commandOf_eq_none.1 hnone
  · next i hsome =>
    have hop : c.toNat % 0x100 ≤ 7 := by
      rw [← opcodeField_toNat, ← not_lt, ← commandOf_eq_none (idx := idxField c), hsome]
      simp
    split_ifs at h with hrsvd hidx
    · cases h
      refine ⟨hop, ?_⟩
      simpa [BitVec.toNat_eq, opcodeField_toNat, idxField_toNat, rsvdField_toNat] using hrsvd
    · cases h
      simpa [CauseApplies, BitVec.toNat_eq, opcodeField_toNat, idxField_toNat] using hidx

/-! ### What a command's meaning can do to `ERR` -/

/-- A command that latches is its operation's issue. -/
theorem exec_eq_issue {i : Instr} {op : PendOp} (h : pendOpOf i = some op) (s : State) :
    exec i s = .next (issue op s) := by
  cases i with
  | nop => simp [pendOpOf] at h
  | round idx =>
    by_cases hidx : idx.toNat < 61
    · obtain rfl : .round ⟨idx.toNat, hidx⟩ = op := by simpa [pendOpOf, hidx] using h
      simp [exec, execRound, hidx]
    · simp [pendOpOf, hidx] at h
  | _ => cases h; rfl

/-- The only well-formed command that never latches is `nop` (40_command.md R83). -/
theorem eq_nop_of_pendOpOf_eq_none {i : Instr} (hw : i.WellFormed) (h : pendOpOf i = none) : i = .nop := by
  cases i with
  | nop => rfl
  | round idx =>
    have hidx : idx.toNat ≤ 60 := of_decide_eq_true hw
    simp [pendOpOf, show idx.toNat < 61 by omega] at h
  | _ => cases h

theorem opcodeOf_mem_of_readsA {i : Instr} {op : PendOp} (h : pendOpOf i = some op) (hr : readsA op = true) :
    (opcodeOf i).toNat ∈ [1, 2, 3, 4, 5, 7] := by
  cases i with
  | nop => cases h
  | hinit => cases h; cases hr
  | _ => simp [opcodeOf]

theorem opcodeOf_mem_of_readsB {i : Instr} {op : PendOp} (h : pendOpOf i = some op) (hr : readsB op = true) :
    (opcodeOf i).toNat ∈ [1, 2, 4, 5] := by
  cases i with
  | nop => cases h
  | pow17 | hinit | habsorb => cases h; cases hr
  | _ => simp [opcodeOf]

/-- An operand error of a decoded command has its cause (60_exceptions.md R162, codes 5 and 6). -/
theorem causeApplies_of_operandError {c : Word32} {i : Instr} {op : PendOp} {e : ErrorCode} {s : State}
    (hd : decode c = .ok i) (hop : pendOpOf i = some op) (he : operandError op s = some e) :
    CauseApplies s c e := by
  obtain ⟨hcode, -⟩ := decode_ok hd
  unfold operandError at he
  split_ifs at he with ha hb
  · cases he
    exact ⟨hcode ▸ opcodeOf_mem_of_readsA hop ha.1, ha.2⟩
  · cases he
    exact ⟨hcode ▸ opcodeOf_mem_of_readsB hop hb.1, hb.2⟩

/-- A decoded command answers a state with `ERR` as it was, or an error whose cause applies. -/
theorem exec_err_cases {c : Word32} {i : Instr} {s t : State} (hd : decode c = .ok i)
    (h : exec i s = .next t) : t.err = s.err ∨ ∃ e, CauseApplies s c e ∧ t = raiseError e s := by
  cases hop : pendOpOf i with
  | none =>
    obtain rfl := eq_nop_of_pendOpOf_eq_none (decode_ok hd).2 hop
    cases h
    cases hb : s.busy
    · exact .inl (by simp)
    · exact .inr ⟨.busy, busy_eq_true.1 hb, by simp⟩
  | some op =>
    rw [exec_eq_issue hop] at h
    cases h
    obtain ⟨hp, hi⟩ | ⟨-, e, he, hi⟩ | ⟨-, -, hi⟩ := issue_cases op s
    · exact .inr ⟨.busy, hp, hi⟩
    · exact .inr ⟨e, causeApplies_of_operandError hd hop he, hi⟩
    · exact .inl (by rw [hi, latch_err])

/-- A word that does not decode raises an error whose cause applies. -/
theorem rejectCommand_cause {c : Word32} {e : ErrorCode} (s : State) (hd : decode c = .error e) :
    ∃ e', CauseApplies s c e' ∧ rejectCommand e s = raiseError e' s := by
  cases hb : s.busy
  · exact ⟨e, causeApplies_of_decode_error s hd, by simp [rejectCommand, hb]⟩
  · exact ⟨.busy, busy_eq_true.1 hb, by simp [rejectCommand, hb]⟩

/-! ### What a step can do to `ERR` -/

theorem engineTurn_err (s : State) : (engineTurn s).err = s.err := by
  obtain ⟨-, h⟩ | ⟨q, -, h⟩ := engineTurn_cases s
  · rw [h]
  · rw [h, complete_err]

/-- `CMD` is the register at 0x04 and `STATUS` the one at 0x08, and no other (20_memory.md R41). -/
theorem off_of_regAt_cmd_status (off : Nat) :
    (regAt off = .cmd → off = 0x04) ∧ (regAt off = .status → off = 0x08) := by
  unfold regAt
  split
  · split <;> simp
  all_goals simp

/-- A host write of a register other than `CMD` leaves `ERR` as it was, or is a clearing write of
`STATUS`. -/
theorem writeReg_err (v : Word32) (s : State) (g : Reg) :
    (writeReg v s g).err = s.err ∨ (g = .status ∧ v[1] = true ∧ (writeReg v s g).err = false) := by
  obtain ⟨k, -, h⟩ | ⟨k, -, h⟩ | ⟨rfl, h⟩ | h := writeReg_cases v s g
  · exact .inl (by rw [h])
  · exact .inl (by rw [h])
  · rw [h, clearError_err]
    cases hv : v[1] <;> simp
  · exact .inl (by rw [h])

/-- The access the unit serves at an offset is the 32-bit one (20_memory.md R45). -/
theorem access_write_eq_hostWrite {off n : Nat} {v : Word32} (h : accessRefusal (.write off n v) = none) :
    Event.access (.write off n v) = hostWrite off v := by
  obtain ⟨hn, -⟩ := (accessRefusal_eq_none _).1 h
  obtain rfl : n = 4 := hn
  rfl

/-- What a `CMD` write's causes depend on does not include what waits to reach the unit. -/
theorem causeApplies_inbox {s : State} {rest : List Event} {c : Word32} {e : ErrorCode} :
    CauseApplies { s with inbox := rest } c e ↔ CauseApplies s c e := by
  cases e <;> rfl

/-- Everything a step can do to `ERR` (10_state.md R28): keep it, raise an error whose cause applies to
the `CMD` write, clear it by a write of `STATUS`, or reset it. -/
theorem step_err_cases {s t : State} (h : step s = .next t) :
    t.err = s.err ∨
    (t.err = true ∧ ∃ c rest e, s.inbox = hostWrite 0x04 c :: rest ∧ CauseApplies s c e) ∨
    (t.err = false ∧ ((∃ rest, s.inbox = .reset none :: rest) ∨
      ∃ (v : Word32) (rest : List Event), s.inbox = hostWrite 0x08 v :: rest ∧ v[1] = true)) := by
  obtain ⟨-, rfl⟩ | ⟨rest, -, rfl⟩ | ⟨rest, hin, rfl⟩ | ⟨off, n, rest, -, -, rfl⟩ |
    ⟨off, n, v, rest, hin, hok, -, rfl⟩ | ⟨off, n, c, rest, i, hin, hok, hcmd, hd, hex⟩ |
    ⟨off, n, c, rest, e, hin, hok, hcmd, hd, rfl⟩ := step_cases h
  · exact .inl (engineTurn_err s)
  · exact .inl (engineTurn_err _)
  · exact .inr (.inr ⟨resetUnit_err _, .inl ⟨rest, hin⟩⟩)
  · exact .inl rfl
  · rw [access_write_eq_hostWrite hok] at hin
    obtain hkeep | ⟨hg, hv, hclear⟩ := writeReg_err v { s with inbox := rest } (regAt off)
    · exact .inl hkeep
    · rw [(off_of_regAt_cmd_status off).2 hg] at hin
      exact .inr (.inr ⟨hclear, .inr ⟨v, rest, hin, hv⟩⟩)
  · rw [access_write_eq_hostWrite hok, (off_of_regAt_cmd_status off).1 hcmd] at hin
    obtain hkeep | ⟨e, hcause, rfl⟩ := exec_err_cases hd hex
    · exact .inl hkeep
    · exact .inr (.inl ⟨raiseError_err _ _, c, rest, e, hin, causeApplies_inbox.1 hcause⟩)
  · rw [access_write_eq_hostWrite hok, (off_of_regAt_cmd_status off).1 hcmd] at hin
    obtain ⟨e', hcause, hr⟩ := rejectCommand_cause { s with inbox := rest } hd
    exact .inr (.inl ⟨by rw [hr, raiseError_err], c, rest, e', hin, causeApplies_inbox.1 hcause⟩)

/-- Settles O42: every way a step can change `ERR` is in `step_err_cases`. -/
theorem errChangesOnlyByRaiseAndClear : Obligations.ErrChangesOnlyByRaiseAndClear := by
  intro s t h
  obtain hkeep | ⟨hset, hcause⟩ | ⟨hclear, hby⟩ := step_err_cases h
  · exact ⟨fun hs ht => by simp [hkeep, hs] at ht, fun hs ht => by simp [hkeep, hs] at ht⟩
  · exact ⟨fun _ _ => hcause, fun _ ht => by simp [hset] at ht⟩
  · exact ⟨fun _ ht => by simp [hclear] at ht, fun _ _ => hby⟩

/-- Settles O9: each row of the reset table (10_state.md R37). -/
theorem resetStateHasResetValues : Obligations.ResetStateHasResetValues :=
  ⟨rfl, rfl, rfl, rfl, rfl, rfl, rfl, rfl, by decide, by decide, rfl, Config.unit.legal, fun _ => rfl⟩

end Sys2Proof.Machine
end

-- A 256-bit register as the sum of its words, and the configuration along a run.
section
namespace Sys2Proof.Machine

/-! ### A register is the sum of its words -/

theorem getWord_toNat (v : Word256) (k : Fin 8) :
    (getWord v k).toNat = v.toNat / (2 ^ 32) ^ k.val % 2 ^ 32 := by
  simp [getWord, Nat.shiftRight_eq_div_pow, pow_mul]

/-- The words are the digits of a register to the base `2 ^ 32`, least significant first
(20_memory.md R42). -/
theorem sum_getWord (v : Word256) : ∑ k : Fin 8, (getWord v k).toNat * 2 ^ (32 * k.val) = v.toNat := by
  let w : Fin ((2 ^ 32) ^ 8) := v.toFin
  have digit (k : Fin 8) : (getWord v k).toNat = finFunctionFinEquiv.symm w k := getWord_toNat v k
  calc ∑ k : Fin 8, (getWord v k).toNat * 2 ^ (32 * k.val)
    _ = finFunctionFinEquiv (finFunctionFinEquiv.symm w) := by
      simp only [digit, pow_mul, finFunctionFinEquiv_apply]
    _ = v.toNat := by rw [Equiv.apply_symm_apply]; rfl

/-- Settles O14: each of the five registers is read word by word at its offsets, and its words sum to it. -/
theorem registerIsSumOfItsWords : Obligations.RegisterIsSumOfItsWords := by
  intro s
  simp only [regAt_words, readReg]
  exact ⟨sum_getWord s.a, sum_getWord s.b, sum_getWord s.r, sum_getWord s.s, sum_getWord s.build.modulus⟩

/-! ### The configuration along a run -/

/-- What every step keeps holds at the end of every run. -/
theorem reaches_keeps {p : State → Prop} (hstep : ∀ s t, step s = .next t → p s → p t) {n : Nat}
    {s t : State} (h : Reaches n s t) (hs : p s) : p t := by
  induction n generalizing s with
  | zero => rwa [reaches_zero.1 h]
  | succ n ih =>
    obtain ⟨u, hu, hrest⟩ := reaches_succ.1 h
    exact ih hrest (hstep s u hu hs)

@[simp] theorem engineTurn_build (s : State) : (engineTurn s).build = s.build := by
  obtain ⟨-, h⟩ | ⟨q, -, h⟩ := engineTurn_cases s
  · rw [h]
  · rw [h, complete_build]

@[simp] theorem writeReg_build (v : Word32) (s : State) (g : Reg) : (writeReg v s g).build = s.build := by
  obtain ⟨k, -, h⟩ | ⟨k, -, h⟩ | ⟨-, h⟩ | h := writeReg_cases v s g
  · rw [h]
  · rw [h]
  · rw [h, clearError_build]
  · rw [h]

@[simp] theorem rejectCommand_build (e : ErrorCode) (s : State) : (rejectCommand e s).build = s.build := by
  obtain ⟨e', h⟩ := rejectCommand_eq e s
  rw [h, raiseError_build]

theorem exec_build {i : Instr} {s t : State} (h : exec i s = .next t) : t.build = s.build := by
  obtain ⟨u, hu, hcases⟩ := exec_cases i s
  obtain rfl : u = t := by rw [hu] at h; cases h; rfl
  obtain ⟨e, rfl⟩ | ⟨-, -, rfl⟩ | ⟨-, op, -, rfl⟩ := hcases
  · exact raiseError_build e s
  · rfl
  · exact latch_build op s

/-- No step changes the configuration (20_memory.md R57). -/
theorem step_build {s t : State} (h : step s = .next t) : t.build = s.build := by
  obtain ⟨-, rfl⟩ | ⟨rest, -, rfl⟩ | ⟨rest, -, rfl⟩ | ⟨off, n, rest, -, -, rfl⟩ |
    ⟨off, n, v, rest, -, -, -, rfl⟩ | ⟨off, n, c, rest, i, -, -, -, -, hex⟩ |
    ⟨off, n, c, rest, e, -, -, -, -, rfl⟩ := step_cases h
  · exact engineTurn_build s
  · exact engineTurn_build _
  · exact resetUnit_build _
  · rfl
  · exact writeReg_build v _ _
  · rw [exec_build hex]
  · exact rejectCommand_build e _

/-- Settles O38: every step keeps the configuration, so every run does. -/
theorem configurationNeverChanges : Obligations.ConfigurationNeverChanges := by
  intro n s t h
  exact reaches_keeps (p := fun u => u.build = s.build) (fun u v huv hu => (step_build huv).trans hu) h rfl

end Sys2Proof.Machine
end

-- Decoding as tests on the numbers of a word's fields.
section
namespace Sys2Proof.Machine

/-- Only `round` has an index (30_encoding.md R62). -/
theorem idxOf_eq_zero {i : Instr} (h : opcodeOf i ≠ 0x04) : idxOf i = 0 := by
  cases i with
  | round idx => exact absurd rfl h
  | _ => rfl

/-- The command of an opcode has the word's index where the opcode is `round`'s or the index is 0. -/
theorem idxOf_of_commandOf {op idx : BitVec 8} {i : Instr} (h : commandOf op idx = some i)
    (hidx : op ≠ 0x04 → idx = 0) : idxOf i = idx := by
  obtain ⟨hop, hround⟩ := commandOf_eq_some h
  by_cases h4 : op = 0x04
  · obtain rfl := hround.resolve_left (not_not_intro h4)
    rfl
  · rw [idxOf_eq_zero (hop ▸ h4), hidx h4]

/-- The first test of decoding: an opcode above 0x07 is illegal. -/
theorem decode_of_opcode_gt {c : Word32} (h : 7 < c.toNat % 0x100) : decode c = .error .illegalOp := by
  have hnone : commandOf (opcodeField c) (idxField c) = none :=
    commandOf_eq_none.2 (by rwa [opcodeField_toNat])
  simp [decode, hnone]

theorem exists_commandOf_of_opcode_le {c : Word32} (h : c.toNat % 0x100 ≤ 7) :
    ∃ i, commandOf (opcodeField c) (idxField c) = some i := by
  rw [← Option.ne_none_iff_exists', ne_eq, commandOf_eq_none, opcodeField_toNat]
  omega

/-- The tests that follow when the opcode names a command: the reserved fields, then the round index. -/
theorem decode_of_commandOf {c : Word32} {i : Instr}
    (h : commandOf (opcodeField c) (idxField c) = some i) :
    decode c =
      if c.toNat / 0x10000 ≠ 0 ∨ (c.toNat % 0x100 ≠ 4 ∧ c.toNat / 0x100 % 0x100 ≠ 0) then
        .error .rsvdField
      else if c.toNat % 0x100 = 4 ∧ 60 < c.toNat / 0x100 % 0x100 then .error .roundIndex
      else .ok i := by
  simp [decode, h, BitVec.toNat_eq, opcodeField_toNat, idxField_toNat, rsvdField_toNat]

/-- Settles O2: an opcode above 0x07 fails the first test; below, the fields decide the later two. -/
theorem decodeTestsInOrder : Obligations.DecodeTestsInOrder := by
  intro c op idx rsvd
  refine ⟨fun hop => ⟨_, decode_of_opcode_gt hop, rfl⟩, fun hop hrsvd => ?_,
    fun h4 hrsvd hidx => ?_, fun hop hrsvd hzero hround => ?_⟩
  · obtain ⟨i, hi⟩ := exists_commandOf_of_opcode_le hop
    exact ⟨_, by rw [decode_of_commandOf hi, if_pos hrsvd], rfl⟩
  · obtain ⟨i, hi⟩ := exists_commandOf_of_opcode_le (c := c) (by omega)
    exact ⟨_, by rw [decode_of_commandOf hi, if_neg (by omega), if_pos ⟨h4, hidx⟩], rfl⟩
  · obtain ⟨i, hi⟩ := exists_commandOf_of_opcode_le hop
    refine ⟨i, by rw [decode_of_commandOf hi, if_neg (by omega), if_neg (by omega)], ?_, ?_⟩
    · rw [(commandOf_eq_some hi).1, opcodeField_toNat]
    · rw [idxOf_of_commandOf hi, idxField_toNat]
      simpa [BitVec.toNat_eq, opcodeField_toNat, idxField_toNat] using hzero

end Sys2Proof.Machine
end

-- Host accesses: what a read returns, what a write reaches, and the error clear.
section
namespace Sys2Proof.Machine

/-! ### The steps of a host read and of a host write -/

/-- The 32-bit access at an aligned offset inside the block is served (20_memory.md R45). -/
theorem accessRefusal_aligned {x : Access} (hbytes : accessBytes x = 4) (hal : accessOff x % 4 = 0)
    (hlt : accessOff x < 0x100) : accessRefusal x = none :=
  (accessRefusal_eq_none x).2 ⟨hbytes, hal, hlt⟩

theorem step_hostRead {s : State} {off : Nat} {rest : List Event} (hin : s.inbox = hostRead off :: rest)
    (hal : off % 4 = 0) (hlt : off < 0x100) :
    step s = .next { s with inbox := rest, returned := readReg s (regAt off) :: s.returned } := by
  have hok : accessRefusal (.read off 4) = none := accessRefusal_aligned rfl hal hlt
  simp only [step, nextTurn, hin, hostRead, serveAccess, hok]
  rfl

theorem step_hostWrite {s : State} {off : Nat} {v : Word32} {rest : List Event}
    (hin : s.inbox = hostWrite off v :: rest) (hal : off % 4 = 0) (hlt : off < 0x100)
    (hcmd : regAt off ≠ .cmd) : step s = .next (writeReg v { s with inbox := rest } (regAt off)) := by
  have hok : accessRefusal (.write off 4 v) = none := accessRefusal_aligned rfl hal hlt
  simp only [step, nextTurn, hin, hostWrite, serveAccess, hok]

section commandWrite
variable {s : State} {c : Word32} {rest : List Event} (hin : s.inbox = hostWrite 0x04 c :: rest)
include hin

theorem nextTurn_commandWrite : nextTurn s = .command c { s with inbox := rest } := by
  have hok : accessRefusal (.write 0x04 4 c) = none :=
    accessRefusal_aligned rfl (Nat.mod_self 4) (show 4 < 0x100 by decide)
  simp only [nextTurn, hin, hostWrite, serveAccess, hok]
  rfl

theorem step_of_decode_ok {i : Instr} (hd : decode c = .ok i) :
    step s = exec i { s with inbox := rest } := by
  simp only [step, nextTurn_commandWrite hin, hd]

theorem step_of_decode_error {e : ErrorCode} (hd : decode c = .error e) :
    step s = .next (rejectCommand e { s with inbox := rest }) := by
  simp only [step, nextTurn_commandWrite hin, hd]

end commandWrite

/-! ### The address map outside the 256-bit registers -/

/-- The reserved offsets of the map (20_memory.md R41). -/
theorem regAt_reserved {off : Nat} (h : (0x0C ≤ off ∧ off < 0x20) ∨ 0xC0 ≤ off) :
    regAt off = .reserved := by
  unfold regAt
  split
  · split
    case h_4 => rfl
    all_goals omega
  case h_7 => rfl
  all_goals omega

/-- Where a write reaches nothing: `INFO`, the reserved offsets and the read-only registers
(40_command.md R82). -/
theorem writeReg_regAt_of_ignored {off : Nat} (h : off = 0x00 ∨ (0x0C ≤ off ∧ off < 0x20) ∨ 0x60 ≤ off)
    (v : Word32) (s : State) : writeReg v s (regAt off) = s := by
  obtain rfl | hlow | hhigh := h
  · rfl
  · rw [regAt_reserved (.inl hlow)]
    rfl
  · unfold regAt
    split
    case h_1 | h_2 | h_3 => omega
    all_goals rfl

/-! ### `STATUS` as a number -/

/-- The fields of `STATUS` do not overlap (10_state.md R26). -/
theorem statusWord_toNat (s : State) :
    (statusWord s).toNat = s.errCode.toNat * 16 + s.err.toNat * 2 + s.busy.toNat := by
  have fields : ∀ (code : BitVec 4) (err busy : Bool),
      (0#24 ++ code ++ 0#2 ++ BitVec.ofBool err ++ BitVec.ofBool busy).toNat =
        code.toNat * 16 + err.toNat * 2 + busy.toNat := by decide
  exact fields s.errCode s.err s.busy

/-- Settles O11: the step reads the register at the offset, and the map names that register. -/
theorem hostReadReturnsMappedWord : Obligations.HostReadReturnsMappedWord := by
  intro s off rest hin hal hlt
  refine ⟨_, step_hostRead hin hal hlt, ?_, ?_, ?_, fun k => ?_, fun h => ?_⟩
  · rintro rfl
    rfl
  · rintro rfl
    rfl
  · rintro rfl
    exact statusWord_toNat s
  · obtain ⟨ha, hb, hr, hs, hm⟩ := regAt_words k
    refine ⟨?_, ?_, ?_, ?_, ?_⟩ <;> rintro rfl
    · rw [ha]; rfl
    · rw [hb]; rfl
    · rw [hr]; rfl
    · rw [hs]; rfl
    · rw [hm]; rfl
  · rw [regAt_reserved h]
    rfl

/-- Settles O12: a write to `CMD` is decoded, and any other is `writeReg` at the register of the offset. -/
theorem hostWriteChangesMappedRegister : Obligations.HostWriteChangesMappedRegister := by
  intro s off v rest hin hal hlt s'
  refine ⟨?_, ?_, ?_, fun k => ⟨?_, ?_⟩, fun h => ?_⟩
  · rintro rfl
    exact ⟨fun i hd => step_of_decode_ok hin hd, fun e hd => step_of_decode_error hin hd⟩
  · rintro rfl hv
    rw [step_hostWrite hin hal hlt (by decide)]
    exact congrArg _ (if_pos hv)
  · rintro rfl hv
    rw [step_hostWrite hin hal hlt (by decide)]
    exact congrArg _ (if_neg (by simp [hv]))
  · rintro rfl
    obtain ⟨ha, -⟩ := regAt_words k
    refine ⟨setWord s.a k v, ?_, getWord_setWord_self s.a k v, fun l hl => getWord_setWord_ne s.a v hl⟩
    rw [step_hostWrite hin hal hlt (by simp [ha]), ha]
    rfl
  · rintro rfl
    obtain ⟨-, hb, -⟩ := regAt_words k
    refine ⟨setWord s.b k v, ?_, getWord_setWord_self s.b k v, fun l hl => getWord_setWord_ne s.b v hl⟩
    rw [step_hostWrite hin hal hlt (by simp [hb]), hb]
    rfl
  · have hcmd : regAt off ≠ .cmd := fun hg => by
      have := (off_of_regAt_cmd_status off).1 hg
      omega
    rw [step_hostWrite hin hal hlt hcmd, writeReg_regAt_of_ignored h]

/-! ### The error clear -/

theorem clearError_eq (v : Word32) (s : State) :
    clearError v s = { s with err := !v[1] && s.err, errCode := if v[1] then 0 else s.errCode } := by
  unfold clearError
  cases hv : v[1] <;> simp

theorem clearError_busy (v : Word32) (s : State) : (clearError v s).busy = s.busy := by
  rw [State.busy, State.busy, clearError_pend]

/-- With nothing to clear, the error clear changes nothing (40_command.md R88). -/
theorem clearError_of_no_error (v : Word32) {s : State} (herr : s.err = false) (hcode : s.errCode = 0) :
    clearError v s = s := by
  rw [clearError_eq, herr, hcode, Bool.and_false, ite_self, ← herr, ← hcode]

/-- Settles O13: the step is `clearError`, and the bits of `STATUS` are those of its fields. -/
theorem errorClearWritesErrOnly : Obligations.ErrorClearWritesErrOnly := by
  intro s v rest hin
  refine ⟨clearError v { s with inbox := rest }, step_hostWrite hin rfl (by decide) (by decide), ?_,
    fun hv => ?_, fun hv => ?_, fun hinv herr => ?_, fun hstatus hv => ?_⟩
  · simp only [clearError_err, clearError_errCode]
    exact clearError_eq v _
  · simp [hv]
  · simp [hv]
  · exact clearError_of_no_error v herr (hinv.code_zero.1 herr)
  · subst hv
    have hsum : s.errCode.toNat * 16 + s.err.toNat * 2 + s.busy.toNat = 0x52 := by
      rw [← statusWord_toNat]
      exact congrArg BitVec.toNat hstatus
    have hbusy : State.busy { s with inbox := rest } = false := by
      have := s.busy.toNat_le
      exact Bool.toNat_eq_zero.1 (show s.busy.toNat = 0 by omega)
    apply BitVec.eq_of_toNat_eq
    rw [readReg, statusWord_toNat, clearError_busy]
    simp [hbusy]

end Sys2Proof.Machine
end

-- Issue: its checks in the order written, `nop`, and its independence of `ERR`.
section
namespace Sys2Proof.Machine

/-! ### The checks of issue -/

theorem issue_of_busy {op : PendOp} {s : State} (hp : s.pend ≠ none) : issue op s = raiseError .busy s :=
  if_pos (busy_eq_true.2 hp)

theorem issue_of_operandError {op : PendOp} {s : State} {e : ErrorCode} (hi : s.pend = none)
    (he : operandError op s = some e) : issue op s = raiseError e s := by
  simp [issue, State.busy, hi, he]

theorem rejectCommand_of_busy {s : State} (e : ErrorCode) (hp : s.pend ≠ none) :
    rejectCommand e s = raiseError .busy s :=
  if_pos (busy_eq_true.2 hp)

theorem rejectCommand_of_idle {s : State} (e : ErrorCode) (hi : s.pend = none) :
    rejectCommand e s = raiseError e s :=
  if_neg (by simp [State.busy, hi])

theorem exec_nop_of_busy {s : State} (hp : s.pend ≠ none) : exec .nop s = .next (raiseError .busy s) :=
  congrArg _ (if_pos (busy_eq_true.2 hp))

theorem exec_nop_of_idle {s : State} (hi : s.pend = none) : exec .nop s = .next s :=
  congrArg _ (if_neg (by simp [State.busy, hi]))

/-- The busy check comes first for every command (40_command.md R83). -/
theorem exec_of_busy (i : Instr) {s : State} (hp : s.pend ≠ none) :
    exec i s = .next (raiseError .busy s) := by
  cases hop : pendOpOf i with
  | some op => rw [exec_eq_issue hop, issue_of_busy hp]
  | none =>
    cases i with
    | nop => exact exec_nop_of_busy hp
    | round idx =>
      have hidx : ¬ idx.toNat < 61 := fun h => by simp [pendOpOf, h] at hop
      simp [exec, execRound, hidx, rejectCommand_of_busy _ hp]
    | _ => cases hop

/-- The operand checks of a latching command, `A` before `B`, by its opcode (40_command.md R83). -/
theorem operandError_of_pendOpOf {i : Instr} {op : PendOp} (h : pendOpOf i = some op) (s : State) :
    operandError op s =
      if (opcodeOf i).toNat ∈ [1, 2, 3, 4, 5, 7] ∧ s.build.P ≤ s.a.toNat then some .aRange
      else if (opcodeOf i).toNat ∈ [1, 2, 4, 5] ∧ s.build.P ≤ s.b.toNat then some .bRange
      else none := by
  have hreads : (readsA op = true ↔ (opcodeOf i).toNat ∈ [1, 2, 3, 4, 5, 7]) ∧
      (readsB op = true ↔ (opcodeOf i).toNat ∈ [1, 2, 4, 5]) := by
    cases i with
    | nop => cases h
    | round idx =>
      obtain ⟨hidx, rfl⟩ : ∃ hidx, PendOp.round ⟨idx.toNat, hidx⟩ = op := by
        simpa [pendOpOf] using h
      exact ⟨by simp [readsA, opcodeOf], by simp [readsB, opcodeOf]⟩
    | _ => cases h; decide
  obtain ⟨hA, hB⟩ := hreads
  simp only [operandError, hA, hB]

/-- Settles O19: the busy check, the decoding error, then the operand checks of the decoded command. -/
theorem issueChecksInOrder : Obligations.IssueChecksInOrder := by
  intro s c rest hin s'
  refine ⟨fun hp => ?_, fun hi e hd => ?_, fun hi i hd => ?_⟩
  · cases hd : decode c with
    | ok i => rw [step_of_decode_ok hin hd, exec_of_busy (s := s') i hp]
    | error e => rw [step_of_decode_error hin hd, rejectCommand_of_busy (s := s') e hp]
  · rw [step_of_decode_error hin hd, rejectCommand_of_idle (s := s') e hi]
  · intro badA badB
    rw [step_of_decode_ok hin hd]
    cases hop : pendOpOf i with
    | none =>
      obtain rfl := eq_nop_of_pendOpOf_eq_none (decode_ok hd).2 hop
      exact ⟨fun h => absurd h.1 (by decide), fun _ h => absurd h.1 (by decide),
        fun _ _ _ => exec_nop_of_idle hi, fun _ _ h => absurd rfl h⟩
    | some op =>
      have hchecks : operandError op s' = if badA then some .aRange else if badB then some .bRange else none :=
        operandError_of_pendOpOf hop s'
      rw [exec_eq_issue hop]
      refine ⟨fun hA => ?_, fun hA hB => ?_, fun _ _ hnop => ?_, fun hA hB _ => ⟨op, rfl, ?_⟩⟩
      · rw [issue_of_operandError (s := s') hi (hchecks.trans (if_pos hA))]
      · rw [issue_of_operandError (s := s') hi (by rw [hchecks, if_neg hA, if_pos hB])]
      · subst hnop
        cases hop
      · rw [issue_of_ok (s := s') hi (by rw [hchecks, if_neg hA, if_neg hB])]
        rfl

/-! ### `nop` -/

theorem opcodeOf_le (i : Instr) : (opcodeOf i).toNat ≤ 7 := by
  cases i <;> simp [opcodeOf]

/-- With an opcode other than `round`'s, only the command's own word decodes (30_encoding.md R62, R63). -/
theorem decode_of_ne_encode {c : Word32} {i : Instr} (h4 : opcodeOf i ≠ 0x04)
    (hop : opcodeField c = opcodeOf i) (hc : c ≠ encode i) : decode c = .error .rsvdField := by
  have hrsvd : rsvdField c ≠ 0 ∨ (opcodeField c ≠ 0x04 ∧ idxField c ≠ 0) := by
    by_contra h
    obtain ⟨hr, hidx⟩ : rsvdField c = 0 ∧ idxField c = 0 := by simpa [hop, show opcodeOf i ≠ 4#8 from h4] using h
    exact hc (word_ext (by simpa using hop) (by simp [hidx, idxOf_eq_zero h4]) (by simp [hr]))
  obtain ⟨j, hj⟩ : ∃ j, commandOf (opcodeField c) (idxField c) = some j :=
    exists_commandOf_of_opcode_le (by rw [← opcodeField_toNat, hop]; exact opcodeOf_le i)
  unfold decode
  rw [hj]
  exact if_pos hrsvd

/-- Settles O24: the reserved forms are words other than the encoding, and `nop` has no check but `busy`. -/
theorem nopRule : Obligations.NopRule :=
  ⟨rfl, fun _ hop hc => decode_of_ne_encode (i := .nop) (by decide) hop hc,
    fun _ => ⟨exec_nop_of_busy, exec_nop_of_idle⟩⟩

/-! ### `ERR` and `ERRCODE` have no influence on issue or completion -/

/-- The result of `f` depends on `ERR` and `ERRCODE` in these two fields only, and `f` keeps them once
`ERR = 1` (40_command.md R89). -/
def IgnoresErr (f : State → State) : Prop :=
  ∀ (s : State) (e : Bool) (code : BitVec 4),
    f { s with err := e, errCode := code } =
      { f s with err := (f { s with err := e, errCode := code }).err,
                 errCode := (f { s with err := e, errCode := code }).errCode } ∧
    (e = true → (f { s with err := e, errCode := code }).err = true ∧
      (f { s with err := e, errCode := code }).errCode = code)

theorem ignoresErr_id : IgnoresErr fun s => s := fun _ _ _ => ⟨rfl, fun he => ⟨he, rfl⟩⟩

theorem ignoresErr_latch (op : PendOp) : IgnoresErr (latch op) := fun _ _ _ => ⟨rfl, fun he => ⟨he, rfl⟩⟩

theorem raiseError_eq (x : ErrorCode) (s : State) :
    raiseError x s = { s with err := true, errCode := if s.err then s.errCode else errorNumber x } := by
  unfold raiseError
  cases h : s.err
  · simp
  · simp [← h]

theorem ignoresErr_raiseError (x : ErrorCode) : IgnoresErr (raiseError x) := by
  intro s e code
  simp only [raiseError_eq]
  exact ⟨trivial, fun he => ⟨trivial, if_pos he⟩⟩

/-- A choice that does not look at `ERR` or `ERRCODE` between two such functions is such a function. -/
theorem IgnoresErr.ite {f g : State → State} {b : State → Bool} (hf : IgnoresErr f) (hg : IgnoresErr g)
    (hb : ∀ s e code, b { s with err := e, errCode := code } = b s) :
    IgnoresErr fun s => if b s then f s else g s := by
  intro s e code
  simp only [hb]
  split
  · exact hf s e code
  · exact hg s e code

theorem ignoresErr_rejectCommand (x : ErrorCode) : IgnoresErr (rejectCommand x) :=
  (ignoresErr_raiseError .busy).ite (ignoresErr_raiseError x) fun _ _ _ => rfl

theorem ignoresErr_issue (op : PendOp) : IgnoresErr (issue op) := by
  refine (ignoresErr_raiseError .busy).ite (fun s e code => ?_) fun _ _ _ => rfl
  have hcheck : operandError op { s with err := e, errCode := code } = operandError op s := rfl
  simp only [hcheck]
  cases operandError op s with
  | none => exact ignoresErr_latch op s e code
  | some x => exact ignoresErr_raiseError x s e code

/-- A command's meaning is a function of the state that `ERR` and `ERRCODE` do not influence. -/
theorem exec_ignoresErr (i : Instr) : ∃ f, IgnoresErr f ∧ ∀ s, exec i s = .next (f s) := by
  cases i with
  | nop => exact ⟨_, (ignoresErr_raiseError .busy).ite ignoresErr_id fun _ _ _ => rfl, fun _ => rfl⟩
  | round idx =>
    by_cases hidx : idx.toNat < 61
    · exact ⟨_, ignoresErr_issue (.round ⟨idx.toNat, hidx⟩), fun s => by simp [exec, execRound, hidx]⟩
    · exact ⟨_, ignoresErr_rejectCommand .roundIndex, fun s => by simp [exec, execRound, hidx]⟩
  | _ => exact ⟨_, ignoresErr_issue _, fun _ => rfl⟩

theorem complete_setErr (q : Pending) (s : State) (e : Bool) (code : BitVec 4) :
    complete q { s with err := e, errCode := code } = { complete q s with err := e, errCode := code } := by
  unfold complete
  split <;> rfl

theorem engineTurn_setErr (s : State) (e : Bool) (code : BitVec 4) :
    engineTurn { s with err := e, errCode := code } = { engineTurn s with err := e, errCode := code } := by
  obtain ⟨hp, h⟩ | ⟨q, hp, h⟩ := engineTurn_cases s
  · rw [h]
    exact engineTurn_of_idle hp
  · rw [h, ← complete_setErr]
    exact engineTurn_of_pend hp

/-- Settles O23: a command's meaning and a completion commute with setting `ERR` and `ERRCODE`. -/
theorem errorsDoNotBlockCommands : Obligations.ErrorsDoNotBlockCommands := by
  intro s i e code
  obtain ⟨f, hf, hexec⟩ := exec_ignoresErr i
  obtain ⟨hframe, hkeep⟩ := hf s e code
  exact ⟨⟨_, _, hexec _, hexec _, hframe, hkeep⟩, engineTurn_setErr s e code⟩

end Sys2Proof.Machine
end

-- What a completion writes, as a function of the configuration and the pending record.
section
namespace Sys2Proof.Machine

/-- The value the completion of a pending record computes (40_command.md R85). -/
def completionValue (c : Build) (q : Pending) : Nat :=
  match q.op with
  | .fadd => addp c.P q.a.toNat q.b.toNat
  | .fmul => mulp c.P q.a.toNat q.b.toNat
  | .pow17 => pow17 c.P q.a.toNat
  | .round i => mimcRound c q.a.toNat q.b.toNat i
  | .encrypt => encrypt c q.b.toNat q.a.toNat
  | .hinit => 0
  | .habsorb => absorb c q.k.toNat q.a.toNat

/-- Every command but `hinit` writes its value to `R`. -/
theorem complete_r {q : Pending} (s : State) (h : q.op ≠ .hinit) :
    (complete q s).r = fieldWord (completionValue s.build q) := by
  obtain ⟨op, a, b, k⟩ := q
  cases op with
  | hinit => exact absurd rfl h
  | _ => rfl

/-- `hinit` and `habsorb` write their value to `S`. -/
theorem complete_s {q : Pending} (s : State) (h : q.op = .hinit ∨ q.op = .habsorb) :
    (complete q s).s = fieldWord (completionValue s.build q) := by
  obtain ⟨op, a, b, k⟩ := q
  obtain rfl | rfl : op = .hinit ∨ op = .habsorb := h
  · rfl
  · rfl

/-- The computed value depends on `P` and `RC` only: not on `BASE` (40_command.md R91). -/
theorem completionValue_congr {c d : Build} (hP : c.modulus = d.modulus) (hRC : c.constants = d.constants)
    (q : Pending) : completionValue c q = completionValue d q := by
  obtain ⟨p, rc, base⟩ := c
  obtain ⟨p', rc', base'⟩ := d
  obtain rfl : p = p' := hP
  obtain rfl : rc = rc' := hRC
  rfl

/-- Settles O34: both completions write the value of the same record, computed with the same `P` and `RC`. -/
theorem resultsDependOnLatchedOperands : Obligations.ResultsDependOnLatchedOperands := by
  intro s t q hs ht hP hRC
  have hvalue := completionValue_congr hP hRC q
  rw [engineTurn_of_pend hs, engineTurn_of_pend ht]
  exact ⟨fun h => by rw [complete_r s h, complete_r t h, hvalue],
    fun h => by rw [complete_s s h, complete_s t h, hvalue]⟩

end Sys2Proof.Machine
end

-- The field functions as the operations of the ring of residues, and the power map as a bijection.
section
namespace Sys2Proof.Machine

/-! ### A field result is determined by its residue -/

/-- Two values in `[0, p)` with the same residue are equal. -/
theorem eq_of_cast_eq {p a b : Nat} (ha : a < p) (hb : b < p) (h : (a : ZMod p) = b) : a = b :=
  ((ZMod.natCast_eq_natCast_iff a b p).1 h).eq_of_lt_of_lt ha hb

@[simp] theorem addp_cast (p a b : Nat) : (addp p a b : ZMod p) = a + b := by simp [addp]

@[simp] theorem mulp_cast (p a b : Nat) : (mulp p a b : ZMod p) = a * b := by simp [mulp]

/-- The five multiplications of the chain make the exponent 17 (41_field.md R102). -/
@[simp] theorem pow17_cast (p x : Nat) : (pow17 p x : ZMod p) = (x : ZMod p) ^ 17 := by
  simp only [pow17, mulp_cast]
  ring

theorem cast_modulus_sub_one {p : Nat} (hp : 0 < p) : ((p - 1 : Nat) : ZMod p) = -1 := by
  rw [Nat.cast_pred hp, ZMod.natCast_self, zero_sub]

/-- The chain is exact: its value is `x ^ 17 mod P` (41_field.md R103). -/
theorem pow17_eq (p x : Nat) : pow17 p x = x ^ 17 % p := by
  have hres : pow17 p x % p = x ^ 17 % p := (ZMod.natCast_eq_natCast_iff' _ _ p).1 (by simp)
  rwa [show pow17 p x % p = pow17 p x from Nat.mod_mod _ p] at hres

/-! ### The laws of the two ring operations -/

theorem addp_comm (p a b : Nat) : addp p a b = addp p b a := by
  rw [addp, addp, Nat.add_comm]

theorem addp_assoc (p a b d : Nat) : addp p (addp p a b) d = addp p a (addp p b d) := by
  simp only [addp, Nat.mod_add_mod, Nat.add_mod_mod, Nat.add_assoc]

theorem mulp_comm (p a b : Nat) : mulp p a b = mulp p b a := by
  rw [mulp, mulp, Nat.mul_comm]

theorem mulp_assoc (p a b d : Nat) : mulp p (mulp p a b) d = mulp p a (mulp p b d) := by
  simp only [mulp, Nat.mod_mul_mod, Nat.mul_mod_mod, Nat.mul_assoc]

theorem addp_zero {p a : Nat} (ha : a < p) : addp p a 0 = a := Nat.mod_eq_of_lt ha

theorem mulp_one {p a : Nat} (ha : a < p) : mulp p a 1 = a := by
  rw [mulp, Nat.mul_one, Nat.mod_eq_of_lt ha]

theorem mulp_zero (p a : Nat) : mulp p a 0 = 0 := Nat.zero_mod p

theorem addp_modulus_sub_one {p : Nat} (hp : 0 < p) : addp p (p - 1) 1 = 0 := by
  rw [addp, Nat.sub_add_cancel hp, Nat.mod_self]

theorem mulp_modulus_sub_one {p : Nat} (hp : 1 < p) : mulp p (p - 1) (p - 1) = 1 := by
  have hpos : 0 < p := by omega
  apply eq_of_cast_eq (mulp_lt hpos _ _) hp
  rw [mulp_cast, cast_modulus_sub_one hpos]
  simp

/-- The sum of two values below `p` is below `2 * p`, so one subtraction reduces it (41_field.md R100). -/
theorem addp_eq_ite {p a b : Nat} (ha : a < p) (hb : b < p) :
    addp p a b = if a + b < p then a + b else a + b - p := by
  split
  · exact Nat.mod_eq_of_lt ‹_›
  · rw [addp, Nat.mod_eq_sub_mod (by omega), Nat.mod_eq_of_lt (by omega)]

/-! ### The power map -/

theorem pow17_zero (p : Nat) : pow17 p 0 = 0 := by simp [pow17_eq]

theorem pow17_one {p : Nat} (hp : 1 < p) : pow17 p 1 = 1 := by
  rw [pow17_eq, Nat.one_pow, Nat.mod_eq_of_lt hp]

/-- `P - 1` is `-1`, and 17 is odd. -/
theorem pow17_modulus_sub_one {p : Nat} (hp : 0 < p) : pow17 p (p - 1) = p - 1 := by
  apply eq_of_cast_eq (pow17_lt hp _) (by omega)
  rw [pow17_cast, cast_modulus_sub_one hp]
  exact Odd.neg_one_pow (by decide)

/-- An exponent coprime to `p - 1` permutes the units of the field, and 0 is the only root of 0. -/
theorem pow_injective_of_coprime {p n : Nat} [Fact p.Prime] (hn : n ≠ 0) (h : (p - 1).Coprime n) :
    Function.Injective fun x : ZMod p => x ^ n := by
  have hcard : (Nat.card (ZMod p)ˣ).Coprime n := by
    rwa [Nat.card_eq_fintype_card, ZMod.card_units]
  intro x y (hxy : x ^ n = y ^ n)
  by_cases hx : x = 0
  · subst hx
    rw [zero_pow hn] at hxy
    exact ((pow_eq_zero_iff hn).1 hxy.symm).symm
  · have hy : y ≠ 0 := fun hy => hx ((pow_eq_zero_iff hn).1 (by rw [hxy, hy, zero_pow hn]))
    have hunit : Units.mk0 x hx ^ n = Units.mk0 y hy ^ n := Units.ext (by simpa using hxy)
    exact congrArg Units.val (hcard.pow_left_bijective.injective hunit)

/-- The power map is injective on `[0, P)` and stays in it, and the set is finite (41_field.md R111). -/
theorem pow17_bijOn {c : Build} (h : c.Legal) : Set.BijOn (pow17 c.P) (Set.Iio c.P) (Set.Iio c.P) := by
  have hprime : Fact c.P.Prime := ⟨h.prime⟩
  have hmaps : Set.MapsTo (pow17 c.P) (Set.Iio c.P) (Set.Iio c.P) := fun x _ => pow17_lt h.P_pos x
  refine ((Set.finite_Iio c.P).injOn_iff_bijOn_of_mapsTo hmaps).1 fun x hx y hy hxy => ?_
  apply eq_of_cast_eq hx hy
  apply pow_injective_of_coprime (n := 17) (by decide) (Nat.Coprime.symm h.coprime)
  simpa using congrArg (Nat.cast : Nat → ZMod c.P) hxy

/-- Settles O49: the laws hold for every modulus above 1; only the bijection needs `P` prime and 17 coprime to
`P - 1`. -/
theorem fieldLawsHold : Obligations.FieldLawsHold := by
  intro c h
  have hone : 1 < c.P := h.prime.one_lt
  exact ⟨addp_comm c.P, addp_assoc c.P, mulp_comm c.P, mulp_assoc c.P,
    fun a ha => ⟨addp_zero ha, mulp_one ha, mulp_zero c.P a⟩,
    addp_modulus_sub_one h.P_pos, mulp_modulus_sub_one hone,
    pow17_zero c.P, pow17_one hone, pow17_modulus_sub_one h.P_pos, pow17_bijOn h⟩

/-- Settles O48: the sum is a residue by definition, and `addp_eq_ite` says which. -/
theorem fieldSumReducesOnce : Obligations.FieldSumReducesOnce :=
  fun _ a b ha hb => ⟨rfl, addp_lt (Nat.zero_lt_of_lt ha) a b, addp_eq_ite ha hb⟩

end Sys2Proof.Machine
end

-- The field commands: their operand errors, their latch and what their completion leaves.
section
namespace Sys2Proof.Machine

/-! ### Issue of a command that latches, on an idle unit -/

section idle
variable {i : Instr} {op : PendOp} {s : State} (hop : pendOpOf i = some op) (hi : s.pend = none)
include hop hi

theorem exec_of_aRange (hA : readsA op = true) (ha : s.build.P ≤ s.a.toNat) :
    exec i s = .next (raiseError .aRange s) := by
  rw [exec_eq_issue hop, issue_of_operandError hi (if_pos ⟨hA, ha⟩)]

theorem exec_of_bRange (hB : readsB op = true) (ha : s.a.toNat < s.build.P)
    (hb : s.build.P ≤ s.b.toNat) : exec i s = .next (raiseError .bRange s) := by
  have herr : operandError op s = some .bRange :=
    (if_neg fun hA => absurd hA.2 (Nat.not_le.2 ha)).trans (if_pos ⟨hB, hb⟩)
  rw [exec_eq_issue hop, issue_of_operandError hi herr]

theorem exec_of_operands_lt (hA : readsA op = true → s.a.toNat < s.build.P)
    (hB : readsB op = true → s.b.toNat < s.build.P) : exec i s = .next (latch op s) := by
  rw [exec_eq_issue hop, issue_of_ok hi (operandError_eq_none.2 ⟨hA, hB⟩)]

end idle

/-! ### Completion of a command that writes `R` only -/

theorem completionValue_lt {c : Build} (hp : 0 < c.P) (q : Pending) : completionValue c q < c.P := by
  obtain ⟨op, a, b, k⟩ := q
  cases op with
  | fadd => exact addp_lt hp _ _
  | fmul => exact mulp_lt hp _ _
  | pow17 => exact pow17_lt hp _
  | round i => exact mimcRound_lt hp _ _ i
  | encrypt => exact encrypt_lt hp _ _
  | hinit => exact hp
  | habsorb => exact absorb_lt hp _ _

/-- Every operation but the two of the hash only writes `R` (40_command.md R85). -/
theorem complete_eq_finishR {q : Pending} (s : State) (hinit : q.op ≠ .hinit) (habsorb : q.op ≠ .habsorb) :
    complete q s = finishR (completionValue s.build q) s := by
  obtain ⟨op, a, b, k⟩ := q
  cases op with
  | hinit => exact absurd rfl hinit
  | habsorb => exact absurd rfl habsorb
  | _ => rfl

/-- Latching and finishing leave no trace but the result. -/
theorem finishR_latch (v : Nat) (op : PendOp) {s : State} (hi : s.pend = none) :
    finishR v (latch op s) = { s with r := fieldWord v } := by
  rw [finishR, latch, ← hi]

/-- An accepted command outside the hash latches, changing the pending record only, and the engine's turn
gives the state before the issue with the command's value in `R` (40_command.md R84, R85). -/
theorem exec_completes_to_r {i : Instr} {op : PendOp} {s : State} (hop : pendOpOf i = some op)
    (hinit : op ≠ .hinit) (habsorb : op ≠ .habsorb) (hi : s.pend = none) (hp : 0 < s.build.P)
    (hA : readsA op = true → s.a.toNat < s.build.P) (hB : readsB op = true → s.b.toNat < s.build.P) :
    ∃ t r, exec i s = .next t ∧ t.busy = true ∧ t = { s with pend := t.pend } ∧
      engineTurn t = { s with r := r } ∧ r.toNat = completionValue s.build ⟨op, s.a, s.b, s.s⟩ := by
  refine ⟨latch op s, _, exec_of_operands_lt hop hi hA hB, rfl, rfl, ?_,
    fieldWord_toNat (completionValue_lt hp _)⟩
  rw [engineTurn_of_pend (latch_pend op s), complete_eq_finishR _ hinit habsorb, finishR_latch _ op hi,
    latch_build]

/-! ### The three commands -/

/-- Settles O25: the value of the completion is `addp` of the operands. -/
theorem faddRule : Obligations.FaddRule :=
  ⟨rfl, fun _ hop hc => decode_of_ne_encode (i := .fadd) (by decide) hop hc, fun _ =>
    ⟨exec_of_busy .fadd, fun hi => exec_of_aRange rfl hi rfl, fun hi => exec_of_bRange rfl hi rfl,
      fun hi ha hb => exec_completes_to_r (op := .fadd) rfl (by decide) (by decide) hi
        (Nat.zero_lt_of_lt ha) (fun _ => ha) fun _ => hb⟩⟩

/-- Settles O26: the value of the completion is `mulp` of the operands. -/
theorem fmulRule : Obligations.FmulRule :=
  ⟨rfl, fun _ hop hc => decode_of_ne_encode (i := .fmul) (by decide) hop hc, fun _ =>
    ⟨exec_of_busy .fmul, fun hi => exec_of_aRange rfl hi rfl, fun hi => exec_of_bRange rfl hi rfl,
      fun hi ha hb => exec_completes_to_r (op := .fmul) rfl (by decide) (by decide) hi
        (Nat.zero_lt_of_lt ha) (fun _ => ha) fun _ => hb⟩⟩

/-- Settles O27: the value of the completion is the chain of `A`, which is exact; `B` is not read. -/
theorem pow17Rule : Obligations.Pow17Rule := by
  refine ⟨rfl, fun _ hop hc => decode_of_ne_encode (i := .pow17) (by decide) hop hc, fun s =>
    ⟨exec_of_busy .pow17, fun hi => exec_of_aRange rfl hi rfl, fun hi ha => ?_⟩⟩
  rw [← pow17_eq]
  exact exec_completes_to_r (op := .pow17) rfl (by decide) (by decide) hi
    (Nat.zero_lt_of_lt ha) (fun _ => ha) fun hB => absurd hB (by decide)

end Sys2Proof.Machine
end

-- The permutation as a map on the field: a round's value, the accumulator, and the bijections.
section
namespace Sys2Proof.Machine

/-- Modular addition inside the round does not change its residue, and the chain is exact
(42_permutation.md R120). -/
theorem mimcRound_eq (c : Build) (x k : Nat) (i : Fin 61) :
    mimcRound c x k i = (x + k + c.RC i) ^ 17 % c.P := by
  rw [mimcRound, pow17_eq, addp, addp, Nat.mod_add_mod, ← Nat.pow_mod]

/-- A fold over the indices in order ends at the last member of any sequence that follows it. -/
theorem foldl_finRange_eq {α : Type} {n : Nat} (f : α → Fin n → α) (acc : Nat → α)
    (h : ∀ i : Fin n, acc (i + 1) = f (acc i) i) : (List.finRange n).foldl f (acc 0) = acc n := by
  induction n with
  | zero => rfl
  | succ n ih =>
    have hprefix := ih (fun a i => f a i.castSucc) fun i => h i.castSucc
    rw [List.finRange_succ_last, List.foldl_append, List.foldl_map, hprefix]
    exact (h (Fin.last n)).symm

/-- The rounds end at entry 61 of the accumulator's sequence (42_permutation.md R121). -/
theorem mimcRounds_eq_of_acc {c : Build} {k : Nat} {acc : Nat → Nat}
    (h : ∀ i : Fin 61, acc (i + 1) = (acc i + k + c.RC i) ^ 17 % c.P) :
    mimcRounds c k (acc 0) = acc 61 :=
  foldl_finRange_eq _ acc fun i => (h i).trans (mimcRound_eq c _ k i).symm

/-! ### The permutation is a bijection -/

/-- Adding a constant is a translation of the ring of residues. -/
theorem addp_bijOn {p : Nat} (hp : 0 < p) (k : Nat) :
    Set.BijOn (fun x => addp p x k) (Set.Iio p) (Set.Iio p) := by
  have hmaps : Set.MapsTo (fun x => addp p x k) (Set.Iio p) (Set.Iio p) := fun x _ => addp_lt hp x k
  refine ((Set.finite_Iio p).injOn_iff_bijOn_of_mapsTo hmaps).1 fun x hx y hy hxy => ?_
  apply eq_of_cast_eq hx hy
  simpa using congrArg (Nat.cast : Nat → ZMod p) hxy

/-- A round is two translations, then the power map. -/
theorem mimcRound_bijOn {c : Build} (h : c.Legal) (k : Nat) (i : Fin 61) :
    Set.BijOn (fun x => mimcRound c x k i) (Set.Iio c.P) (Set.Iio c.P) :=
  (pow17_bijOn h).comp ((addp_bijOn h.P_pos (c.RC i)).comp (addp_bijOn h.P_pos k))

/-- A fold of bijections of a set, as a function of the initial value, is one. -/
theorem foldl_bijOn {α ι : Type} {t : Set α} {f : α → ι → α} (h : ∀ i, Set.BijOn (fun x => f x i) t t)
    (l : List ι) : Set.BijOn (fun x => l.foldl f x) t t := by
  induction l with
  | nil => exact Set.bijOn_id t
  | cons i l ih => exact ih.comp (h i)

/-- Settles O50: the 61 rounds are bijections, and the final key addition is a translation. -/
theorem encryptIsBijection : Obligations.EncryptIsBijection := fun _ h k _ =>
  (addp_bijOn h.P_pos k).comp (foldl_bijOn (mimcRound_bijOn h k) _)

end Sys2Proof.Machine
end

-- The commands of the permutation, and 61 rounds with one addition as one `encrypt`.
section
namespace Sys2Proof.Machine

/-! ### The round index, in the word and in the command -/

/-- With `round`'s opcode, the reserved field is tested before the index (30_encoding.md R71). -/
theorem decode_of_opcode_round {c : Word32} (hop : opcodeField c = 0x04) :
    decode c =
      if rsvdField c ≠ 0 then .error .rsvdField
      else if 60 < (idxField c).toNat then .error .roundIndex
      else .ok (.round (idxField c)) := by
  simp [decode, commandOf, hop]

theorem exec_round_of_index_gt {idx : BitVec 8} {s : State} (hi : s.pend = none) (h : 60 < idx.toNat) :
    exec (.round idx) s = .next (raiseError .roundIndex s) := by
  have hidx : ¬ idx.toNat < 61 := by omega
  simp [exec, execRound, hidx, rejectCommand_of_idle _ hi]

theorem pendOpOf_round {idx : BitVec 8} {i : Fin 61} (h : idx.toNat = i) :
    pendOpOf (.round idx) = some (.round i) := by
  simp [pendOpOf, h]

/-! ### The two commands -/

/-- Settles O28: the value of the completion is `mimcRound` of the operands at the index. -/
theorem roundRule : Obligations.RoundRule := by
  refine ⟨fun _ => rfl, fun _ hop hr => (decode_of_opcode_round hop).trans (if_pos hr),
    fun _ hop hr hidx => ?_, fun s idx =>
    ⟨exec_of_busy _, exec_round_of_index_gt, fun hi hidx => ?_, fun hi hidx => ?_,
      fun i hidx hi ha hb => ?_⟩⟩
  · rw [decode_of_opcode_round hop, if_neg (not_not.2 hr), if_pos hidx]
  · exact exec_of_aRange (pendOpOf_round (i := ⟨idx.toNat, by omega⟩) rfl) hi rfl
  · exact exec_of_bRange (pendOpOf_round (i := ⟨idx.toNat, by omega⟩) rfl) hi rfl
  · rw [← mimcRound_eq]
    exact exec_completes_to_r (pendOpOf_round hidx) nofun nofun hi (Nat.zero_lt_of_lt ha)
      (fun _ => ha) fun _ => hb

/-- Settles O29: the value of the completion adds the key to the end of the accumulator's sequence. -/
theorem encryptRule : Obligations.EncryptRule := by
  refine ⟨rfl, fun _ hop hc => decode_of_ne_encode (i := .encrypt) (by decide) hop hc, fun s =>
    ⟨exec_of_busy .encrypt, fun hi => exec_of_aRange rfl hi rfl, fun hi => exec_of_bRange rfl hi rfl,
      fun hi ha hb acc hzero hacc => ?_⟩⟩
  rw [← mimcRounds_eq_of_acc hacc, hzero]
  exact exec_completes_to_r (op := .encrypt) rfl nofun nofun hi (Nat.zero_lt_of_lt ha)
    (fun _ => ha) fun _ => hb

/-! ### 61 `round` commands and one `fadd` -/

/-- An accepted command outside the hash, run to its completion, changes `R` only. -/
theorem runCommand_writes_r {i : Instr} {op : PendOp} {s : State} (hop : pendOpOf i = some op)
    (hinit : op ≠ .hinit) (habsorb : op ≠ .habsorb) (hi : s.pend = none)
    (hA : s.a.toNat < s.build.P) (hB : s.b.toNat < s.build.P) :
    ∃ r, runCommand i s = { s with r := r } ∧
      r.toNat = completionValue s.build ⟨op, s.a, s.b, s.s⟩ := by
  obtain ⟨t, r, hexec, -, -, hturn, hr⟩ :=
    exec_completes_to_r hop hinit habsorb hi (Nat.zero_lt_of_lt hA) (fun _ => hA) fun _ => hB
  exact ⟨r, by simp only [runCommand, hexec, hturn], hr⟩

/-- The unit `u` is ready for the next of the rounds begun in `s`, with the accumulator in `A`. -/
structure HoldsAccumulator (s u : State) (acc : Nat) : Prop where
  build_eq : u.build = s.build
  b_eq : u.b = s.b
  idle : u.pend = none
  a_eq : u.a.toNat = acc
  acc_lt : acc < s.build.P

/-- One `round` command and the copy of `R` to `A` take the accumulator through one round. -/
theorem HoldsAccumulator.round {s u : State} {acc : Nat} (h : HoldsAccumulator s u acc)
    (hb : s.b.toNat < s.build.P) (i : Fin 61) :
    HoldsAccumulator s (copyRToA (runCommand (.round (BitVec.ofNat 8 i)) u))
      (mimcRound s.build acc s.b.toNat i) := by
  obtain ⟨hbuild, hbeq, hidle, rfl, hlt⟩ := h
  have hidx : (BitVec.ofNat 8 i).toNat = i := Nat.mod_eq_of_lt (by omega)
  obtain ⟨r, hrun, hr⟩ := runCommand_writes_r (pendOpOf_round hidx) nofun nofun hidle (by rwa [hbuild])
    (by rwa [hbuild, hbeq])
  have hval : r.toNat = mimcRound s.build u.a.toNat s.b.toNat i := by
    rw [hr, completionValue, hbuild, hbeq]
  rw [hrun]
  exact ⟨hbuild, hbeq, hidle, hval, mimcRound_lt (Nat.zero_lt_of_lt hb) _ _ i⟩

/-- Settles O51: the rounds leave the accumulator of `encrypt` in `A`, and `fadd` adds the key to it. -/
theorem encryptEqualsRoundsAndFadd : Obligations.EncryptEqualsRoundsAndFadd := by
  intro s _ hi ha hb t
  have ht : HoldsAccumulator s t (mimcRounds s.build s.b.toNat s.a.toNat) :=
    List.foldl_rel ⟨rfl, rfl, hi, rfl, ha⟩ fun i _ _ _ h => h.round hb i
  obtain ⟨hbuild, hbeq, hidle, haeq, hlt⟩ := ht
  obtain ⟨r, hfadd, hr⟩ := runCommand_writes_r (i := .fadd) (op := .fadd) (s := t) rfl nofun nofun hidle
    (by rwa [hbuild, haeq]) (by rwa [hbuild, hbeq])
  obtain ⟨r', hencrypt, hr'⟩ := runCommand_writes_r (i := .encrypt) (op := .encrypt) rfl nofun nofun hi ha hb
  have hval : r.toNat = r'.toNat := by
    rw [hr, hr']
    simp only [completionValue, encrypt, hbuild, hbeq, haeq]
  rw [hfadd, hencrypt]
  exact BitVec.eq_of_toNat_eq hval

end Sys2Proof.Machine
end

-- The hash commands: `hinit`, `habsorb`, and a chaining step computed without `S`.
section
namespace Sys2Proof.Machine

/-! ### Completion of the two hash commands -/

/-- The engine's turn on a latched `hinit` leaves no trace but `S = 0` (43_hash.md R142). -/
theorem engineTurn_latch_hinit {s : State} (hi : s.pend = none) :
    engineTurn (latch .hinit s) = { s with s := 0 } := by
  rw [engineTurn_of_pend (latch_pend .hinit s)]
  exact congrArg (fun p => { s with s := 0, pend := p }) hi.symm

/-- The engine's turn on a latched `habsorb` leaves no trace but the chaining step's value in `S` and `R`
(43_hash.md R143). -/
theorem engineTurn_latch_habsorb {s : State} (hi : s.pend = none) :
    engineTurn (latch .habsorb s) =
      { s with s := fieldWord (absorb s.build s.s.toNat s.a.toNat),
               r := fieldWord (absorb s.build s.s.toNat s.a.toNat) } := by
  rw [engineTurn_of_pend (latch_pend .habsorb s)]
  exact congrArg (fun p => { finishSR (absorb s.build s.s.toNat s.a.toNat) s with pend := p }) hi.symm

/-- A chaining step from the end of the accumulator's sequence (43_hash.md R140). -/
theorem absorb_eq_of_acc {c : Build} {k : Nat} {acc : Nat → Nat}
    (h : ∀ i : Fin 61, acc (i + 1) = (acc i + k + c.RC i) ^ 17 % c.P) :
    absorb c k (acc 0) = (acc 61 + k + k + acc 0) % c.P := by
  simp only [absorb, encrypt, addp, mimcRounds_eq_of_acc h, Nat.mod_add_mod]

/-! ### The two commands -/

/-- Settles O30: `hinit` reads no operand, so an idle unit latches it in every state. -/
theorem hinitRule : Obligations.HinitRule :=
  ⟨rfl, fun _ hop hc => decode_of_ne_encode (i := .hinit) (by decide) hop hc, fun s =>
    ⟨exec_of_busy .hinit, fun hi => ⟨latch .hinit s, exec_of_operands_lt rfl hi nofun nofun, rfl, rfl,
      engineTurn_latch_hinit hi⟩⟩⟩

/-- Settles O31: the value of the completion is the chaining step keyed by `S`; `B` is not read. -/
theorem habsorbRule : Obligations.HabsorbRule := by
  refine ⟨rfl, fun _ hop hc => decode_of_ne_encode (i := .habsorb) (by decide) hop hc, fun s =>
    ⟨exec_of_busy .habsorb, fun hi => exec_of_aRange rfl hi rfl, fun hi ha acc hzero hacc => ?_⟩⟩
  refine ⟨latch .habsorb s, _, exec_of_operands_lt rfl hi (fun _ => ha) nofun, rfl, rfl,
    engineTurn_latch_habsorb hi, ?_⟩
  rw [fieldWord_toNat (absorb_lt (Nat.zero_lt_of_lt ha) _ _), ← hzero, absorb_eq_of_acc hacc]

/-! ### A chaining step without `S` -/

/-- Settles O52: `encrypt` keyed by `B`, then the two additions of the chaining step, each writing `R` only. -/
theorem absorbWithoutChainingState : Obligations.AbsorbWithoutChainingState := by
  intro s hlegal hi ha hb t u v
  obtain ⟨e, hencrypt, he⟩ := runCommand_writes_r (i := .encrypt) (op := .encrypt) rfl nofun nofun hi ha hb
  have ht : t = { s with a := e, r := e } := congrArg copyRToA hencrypt
  have helt : e.toNat < s.build.P := he ▸ completionValue_lt hlegal.P_pos _
  obtain ⟨f, hkey, hf⟩ := runCommand_writes_r (i := .fadd) (op := .fadd) (s := { s with a := e, r := e })
    rfl nofun nofun hi helt hb
  have hu : u = { s with a := f, r := f } := congrArg copyRToA ((congrArg _ ht).trans hkey)
  have hflt : f.toNat < s.build.P := hf ▸ completionValue_lt hlegal.P_pos _
  obtain ⟨g, hinput, hg⟩ := runCommand_writes_r (i := .fadd) (op := .fadd)
    (s := { s with a := f, b := s.a, r := f }) rfl nofun nofun hi hflt ha
  have hv : v = { s with a := f, b := s.a, r := g } :=
    (congrArg (fun w : State => runCommand .fadd { w with b := s.a }) hu).trans hinput
  refine ⟨?_, by rw [hv]⟩
  calc v.r.toNat
    _ = addp s.build.P f.toNat s.a.toNat := by rw [hv]; exact hg
    _ = addp s.build.P (addp s.build.P e.toNat s.b.toNat) s.a.toNat := by rw [hf]; rfl
    _ = absorb s.build s.b.toNat s.a.toNat := by rw [he]; rfl

end Sys2Proof.Machine
end

-- What the unit does with a list of events from the host: loads, commands run to completion, reads.
section
namespace Sys2Proof.Machine

/-! ### Issue and completion leave the host's side of the bus alone -/

theorem raiseError_setBus (e : ErrorCode) (s : State) (l : List Event) (w : List Word32) :
    raiseError e { s with inbox := l, returned := w } =
      { raiseError e s with inbox := l, returned := w } := by
  simp only [raiseError_eq]

theorem issue_setBus (op : PendOp) (s : State) (l : List Event) (w : List Word32) :
    issue op { s with inbox := l, returned := w } = { issue op s with inbox := l, returned := w } := by
  obtain ⟨hp, h⟩ | ⟨hi, e, he, h⟩ | ⟨hi, hok, h⟩ := issue_cases op s
  · rw [h, ← raiseError_setBus]
    exact issue_of_busy hp
  · rw [h, ← raiseError_setBus]
    exact issue_of_operandError hi he
  · rw [h]
    exact issue_of_ok hi hok

theorem complete_setBus (q : Pending) (s : State) (l : List Event) (w : List Word32) :
    complete q { s with inbox := l, returned := w } = { complete q s with inbox := l, returned := w } := by
  unfold complete
  split <;> rfl

theorem engineTurn_setBus (s : State) (l : List Event) (w : List Word32) :
    engineTurn { s with inbox := l, returned := w } = { engineTurn s with inbox := l, returned := w } := by
  obtain ⟨hp, h⟩ | ⟨q, hp, h⟩ := engineTurn_cases s
  · rw [h]
    exact engineTurn_of_idle hp
  · rw [h, ← complete_setBus]
    exact engineTurn_of_pend hp

/-! ### Serving a list of events -/

/-- A run is a run of its first steps and then one of the rest. -/
theorem reaches_trans {m n : Nat} {s u t : State} (h : Reaches m s u) (h' : Reaches n u t) :
    Reaches (m + n) s t := by
  induction m generalizing s with
  | zero => rwa [Nat.zero_add, ← reaches_zero.1 h]
  | succ m ih =>
    obtain ⟨v, hv, hrest⟩ := reaches_succ.1 h
    rw [Nat.succ_add]
    exact reaches_succ.2 ⟨v, hv, ih hrest⟩

theorem reaches_one {s t : State} (h : step s = .next t) : Reaches 1 s t :=
  reaches_succ.2 ⟨t, h, reaches_zero.2 rfl⟩

/-- Whatever follows the events `es`, the unit serves them all, one a step, and its registers go from those
of `s` to those of `t`. What reads return is left open. -/
def Serves (es : List Event) (s t : State) : Prop :=
  ∀ (rest : List Event) (w : List Word32), ∃ w', Reaches es.length
    { s with inbox := es ++ rest, returned := w } { t with inbox := rest, returned := w' }

theorem serves_nil (s : State) : Serves [] s s := fun _ w => ⟨w, reaches_zero.2 rfl⟩

theorem serves_singleton {e : Event} {s t : State}
    (h : ∀ rest w, ∃ w', step { s with inbox := e :: rest, returned := w } =
      .next { t with inbox := rest, returned := w' }) : Serves [e] s t := by
  intro rest w
  obtain ⟨w', hstep⟩ := h rest w
  exact ⟨w', reaches_one hstep⟩

theorem Serves.append {es fs : List Event} {s u t : State} (h : Serves es s u) (h' : Serves fs u t) :
    Serves (es ++ fs) s t := by
  intro rest w
  obtain ⟨w', hes⟩ := h (fs ++ rest) w
  obtain ⟨w'', hfs⟩ := h' rest w'
  rw [List.append_assoc, List.length_append]
  exact ⟨w'', reaches_trans hes hfs⟩

/-- Blocks of events, one for each element, are served in order. -/
theorem serves_flatten {α : Type} {events : α → List Event} {f : State → α → State}
    (h : ∀ s x, Serves (events x) s (f s x)) (xs : List α) (s : State) :
    Serves (xs.map events).flatten s (xs.foldl f s) := by
  induction xs generalizing s with
  | nil => exact serves_nil s
  | cons x xs ih => exact (h s x).append (ih (f s x))

theorem serves_hostRead {off : Nat} (hal : off % 4 = 0) (hlt : off < 0x100) (s : State) :
    Serves [hostRead off] s s :=
  serves_singleton fun _ _ => ⟨_, step_hostRead rfl hal hlt⟩

theorem serves_engine (s : State) : Serves [.engine] s (engineTurn s) :=
  serves_singleton fun rest w => ⟨w, congrArg _ (engineTurn_setBus s rest w)⟩

/-- `wait` serves the polls, completes the pending command and reads `STATUS` once more
(30_encoding.md R73). -/
theorem serves_waitEvents (polls : Nat) (s : State) : Serves (waitEvents polls) s (engineTurn s) := by
  have hpoll (u : State) : Serves [hostRead 0x08] u u := serves_hostRead rfl (by decide) u
  have hpolls : Serves (List.replicate polls (hostRead 0x08)) s s := by
    induction polls with
    | zero => exact serves_nil s
    | succ n ih => exact (hpoll s).append ih
  exact hpolls.append ((serves_engine s).append (hpoll _))

theorem runCommand_of_exec {i : Instr} {s t : State} (h : exec i s = .next t) :
    runCommand i s = engineTurn t := by
  simp only [runCommand, h]

/-- `<cmd>.w` issues the command and completes it, however long the host polls (30_encoding.md R73). -/
theorem serves_cmdW {i : Instr} {op : PendOp} (hd : decode (encode i) = .ok i) (hop : pendOpOf i = some op)
    (polls : Nat) (s : State) : Serves (AsmLine.cmdW i polls).events s (runCommand i s) := by
  have hissue : Serves [hostCommand i] s (issue op s) := serves_singleton fun rest w => by
    rw [step_of_decode_ok rfl hd, exec_eq_issue hop]
    exact ⟨w, congrArg _ (issue_setBus op s rest w)⟩
  rw [runCommand_of_exec (exec_eq_issue hop s)]
  exact hissue.append (serves_waitEvents polls _)

/-! ### Loading `A` and reading `S`, word by word -/

theorem serves_write_a (k : Fin 8) (v : Word32) (s : State) :
    Serves [hostWrite (0x20 + 4 * k) v] s { s with a := setWord s.a k v } := by
  obtain ⟨ha, -⟩ := regAt_words k
  refine serves_singleton fun rest w => ⟨w, ?_⟩
  rw [step_hostWrite rfl (by omega) (by omega) (by simp [ha]), ha]
  rfl

/-- Writing the words of `v` at the positions of a list changes these words only. -/
theorem getWord_foldl_setWord (v : Word256) (l : List (Fin 8)) (a : Word256) (j : Fin 8) :
    getWord (l.foldl (fun a k => setWord a k (getWord v k)) a) j =
      if j ∈ l then getWord v j else getWord a j := by
  induction l generalizing a with
  | nil => rfl
  | cons k l ih =>
    rw [List.foldl_cons, ih]
    by_cases hk : j = k
    · simp [hk]
    · simp [hk, getWord_setWord_ne a (getWord v k) hk]

/-- All eight words written, in any register, make the value (20_memory.md R42). -/
theorem foldl_setWord_finRange (v a : Word256) :
    (List.finRange 8).foldl (fun a k => setWord a k (getWord v k)) a = v :=
  eq_of_getWord_eq fun k => by rw [getWord_foldl_setWord, if_pos (List.mem_finRange k)]

/-- `ld.a` loads `A` and changes no other register (30_encoding.md R73). -/
theorem serves_ldA (v : Word256) (s : State) : Serves (AsmLine.ldA v).events s { s with a := v } := by
  have hwords (l : List (Fin 8)) (u : State) :
      Serves (l.map fun k => hostWrite (0x20 + 4 * k.val) (getWord v k)) u
        { u with a := l.foldl (fun a k => setWord a k (getWord v k)) u.a } := by
    induction l generalizing u with
    | nil => exact serves_nil u
    | cons k l ih => exact (serves_write_a k (getWord v k) u).append (ih _)
  have hall := hwords (List.finRange 8) s
  rwa [foldl_setWord_finRange] at hall

/-- The reads of `rd.s` return the words of `S`, the last one newest. -/
theorem reaches_readWords_s (s : State) (rest : List Event) (w : List Word32) :
    Reaches (readWords 0x80).length { s with inbox := readWords 0x80 ++ rest, returned := w }
      { s with inbox := rest, returned := ((List.finRange 8).map (getWord s.s)).reverse ++ w } := by
  have hwords (l : List (Fin 8)) (w : List Word32) :
      Reaches (l.map fun k => hostRead (0x80 + 4 * k.val)).length
        { s with inbox := (l.map fun k => hostRead (0x80 + 4 * k.val)) ++ rest, returned := w }
        { s with inbox := rest, returned := (l.map (getWord s.s)).reverse ++ w } := by
    induction l generalizing w with
    | nil => exact reaches_zero.2 rfl
    | cons k l ih =>
      obtain ⟨-, -, -, hs, -⟩ := regAt_words k
      refine reaches_succ.2 ⟨_, step_hostRead rfl (by omega) (by omega), ?_⟩
      simpa [hs, readReg] using ih (getWord s.s k :: w)
  exact hwords (List.finRange 8) w

/-- The value of `rd.s` is `S` (30_encoding.md R73). -/
theorem lastValueRead_words {t : State} {v : Word256} {w : List Word32}
    (h : t.returned = ((List.finRange 8).map (getWord v)).reverse ++ w) : lastValueRead t = v.toNat := by
  have htake : t.returned.take 8 = ((List.finRange 8).map (getWord v)).reverse := by
    rw [h]
    exact List.take_left' (by simp)
  rw [lastValueRead, htake, List.foldl_reverse, ← sum_getWord, Fin.sum_univ_eight]
  have hpos : List.finRange 8 = [0, 1, 2, 3, 4, 5, 6, 7] := rfl
  simp only [hpos, List.map_cons, List.map_nil, List.foldr_cons, List.foldr_nil,
    Fin.coe_ofNat_eq_mod]
  ring

/-- After events the unit serves, `rd.s` returns the `S` they leave. -/
theorem Serves.reaches_rdS {es rest : List Event} {s t : State} (h : Serves es s t)
    (hin : s.inbox = es ++ readWords 0x80 ++ rest) :
    ∃ w, Reaches (es ++ readWords 0x80).length s { t with inbox := rest, returned := w } ∧
      lastValueRead { t with inbox := rest, returned := w } = t.s.toNat := by
  obtain ⟨w, hes⟩ := h (readWords 0x80 ++ rest) s.returned
  rw [← List.append_assoc, ← hin] at hes
  rw [List.length_append]
  exact ⟨_, reaches_trans hes (reaches_readWords_s t rest w), lastValueRead_words rfl⟩

end Sys2Proof.Machine
end

-- The hash protocol: `hinit`, then one `habsorb` for each element, then `S` read.
section
namespace Sys2Proof.Machine

/-! ### The registers along the protocol -/

/-- `ld.a x; habsorb.w`, as it acts on the registers (43_hash.md R144). -/
def absorbElement (s : State) (x : Word256) : State := runCommand .habsorb { s with a := x }

theorem runCommand_hinit {s : State} (hi : s.pend = none) : runCommand .hinit s = { s with s := 0 } :=
  (runCommand_of_exec (exec_of_operands_lt (op := .hinit) rfl hi nofun nofun)).trans (engineTurn_latch_hinit hi)

section absorbElement
variable {s : State} {x : Word256} (hi : s.pend = none)
include hi

theorem absorbElement_of_lt (hx : x.toNat < s.build.P) :
    absorbElement s x =
      { s with a := x, s := fieldWord (absorb s.build s.s.toNat x.toNat),
               r := fieldWord (absorb s.build s.s.toNat x.toNat) } :=
  (runCommand_of_exec (exec_of_operands_lt (op := .habsorb) (s := { s with a := x }) rfl hi (fun _ => hx)
    nofun)).trans (engineTurn_latch_habsorb (s := { s with a := x }) hi)

theorem absorbElement_of_le (hx : s.build.P ≤ x.toNat) :
    absorbElement s x = raiseError .aRange { s with a := x } :=
  (runCommand_of_exec (exec_of_aRange (s := { s with a := x }) rfl hi rfl hx)).trans
    (engineTurn_of_idle ((raiseError_pend _ _).trans hi))

end absorbElement

/-- What holds of the unit `t` after `hinit` on `s` and the elements `xs`: an element of `P` or more raised
an error, and without one `S` holds the hash and `R` shows it once anything was absorbed. -/
structure HasAbsorbed (s t : State) (xs : List Nat) : Prop where
  build_eq : t.build = s.build
  idle : t.pend = none
  err_iff : t.err = false ↔ s.err = false ∧ ∀ x ∈ xs, x < s.build.P
  s_eq : (∀ x ∈ xs, x < s.build.P) → t.s.toNat = hashSeq s.build xs
  r_eq : (∀ x ∈ xs, x < s.build.P) → t.r = if xs = [] then s.r else t.s

theorem hasAbsorbed_hinit {s : State} (hi : s.pend = none) : HasAbsorbed s (runCommand .hinit s) [] := by
  rw [runCommand_hinit hi]
  exact ⟨rfl, hi, by simp, fun _ => rfl, fun _ => rfl⟩

theorem HasAbsorbed.snoc {s t : State} {xs : List Nat} (h : HasAbsorbed s t xs)
    (hlegal : s.build.Legal) (x : Word256) : HasAbsorbed s (absorbElement t x) (xs ++ [x.toNat]) := by
  obtain ⟨hbuild, hidle, herr, hs, -⟩ := h
  by_cases hx : x.toNat < s.build.P
  · rw [absorbElement_of_lt hidle (by rwa [hbuild])]
    refine ⟨hbuild, hidle, by simpa [or_imp, forall_and, hx] using herr, fun hxs => ?_, fun _ => by simp⟩
    have hprev : t.s.toNat = hashSeq s.build xs := hs fun y hy => hxs y (by simp [hy])
    simp only [hbuild, hprev, fieldWord_toNat (absorb_lt hlegal.P_pos _ _), hashSeq,
      List.foldl_append, List.foldl_cons, List.foldl_nil]
  · have hbad : ¬ ∀ y ∈ xs ++ [x.toNat], y < s.build.P := fun hxs => hx (hxs _ (by simp))
    rw [absorbElement_of_le hidle (by rw [hbuild]; exact not_lt.1 hx)]
    exact ⟨(raiseError_build _ _).trans hbuild, (raiseError_pend _ _).trans hidle,
      iff_of_false (by simp) fun h => hbad h.2, fun hxs => absurd hxs hbad, fun hxs => absurd hxs hbad⟩

theorem hasAbsorbed_foldl {s : State} (hlegal : s.build.Legal) (hi : s.pend = none) (xs : List Word256) :
    HasAbsorbed s (xs.foldl absorbElement (runCommand .hinit s)) (xs.map BitVec.toNat) := by
  induction xs using List.reverseRecOn with
  | nil => exact hasAbsorbed_hinit hi
  | append_singleton xs x ih =>
    rw [List.foldl_append, List.map_append]
    exact ih.snoc hlegal x

/-! ### The protocol on the bus -/

theorem serves_absorbEvents (s : State) (x : Word256 × Nat) :
    Serves (absorbEvents x) s (absorbElement s x.1) := by
  rw [absorbEvents, List.append_assoc]
  exact (serves_ldA x.1 s).append (serves_cmdW (op := .habsorb) rfl rfl x.2 _)

/-- The protocol up to the read of `S` (43_hash.md R144). -/
theorem serves_hash_commands (first : Nat) (xs : List (Word256 × Nat)) (s : State) :
    Serves ((AsmLine.cmdW .hinit first).events ++ (xs.map absorbEvents).flatten) s
      ((xs.map Prod.fst).foldl absorbElement (runCommand .hinit s)) := by
  rw [List.foldl_map]
  exact (serves_cmdW (op := .hinit) rfl rfl first s).append (serves_flatten serves_absorbEvents xs _)

/-- Settles O53: the registers follow `HasAbsorbed`, and the eight reads return the words of `S`. -/
theorem hashProtocolReadsHash : Obligations.HashProtocolReadsHash := by
  intro s first xs rest hlegal hi hin
  have habs := hasAbsorbed_foldl hlegal hi (xs.map Prod.fst)
  rw [List.map_map] at habs
  obtain ⟨w, hreach, hread⟩ := (serves_hash_commands first xs s).reaches_rdS hin
  obtain ⟨-, hidle, herr, hs, hr⟩ := habs
  refine ⟨_, hreach, rfl, hidle, fun he => ?_, fun he hxs => ?_, fun hnil => ?_, fun he hne => ?_⟩
  · exact ⟨hread.trans (hs (herr.1 he).2), hs (herr.1 he).2⟩
  · exact herr.2 ⟨he, List.forall_mem_map.2 hxs⟩
  · subst hnil
    exact ⟨hr nofun, BitVec.eq_of_toNat_eq (hs nofun)⟩
  · exact (hr (herr.1 he).2).trans (if_neg (by simpa using hne))

end Sys2Proof.Machine
end

-- Errors: which one a `CMD` write raises, what it leaves unchanged, and that no other step raises one.
section
namespace Sys2Proof.Machine

/-- Settles O20: `raiseError` asks for `ERR` and nothing else. -/
theorem raiseErrorKeepsFirstCode : Obligations.RaiseErrorKeepsFirstCode :=
  fun _ _ => ⟨fun h => if_neg (by simp [h]), fun h => if_pos h⟩

/-! ### Decoding stops at a test no later than a cause in the word -/

theorem decode_of_rsvdField_cause {s : State} {c : Word32} (h : CauseApplies s c .rsvdField) :
    decode c = .error .rsvdField := by
  obtain ⟨hop, hfields⟩ := h
  obtain ⟨i, hi⟩ := exists_commandOf_of_opcode_le hop
  rw [decode_of_commandOf hi, if_pos hfields]

/-- A round index out of range is found by decoding, unless the reserved field is. -/
theorem decode_of_roundIndex_cause {s : State} {c : Word32} (h : CauseApplies s c .roundIndex) :
    ∃ e, decode c = .error e ∧ (errorNumber e).toNat ≤ (errorNumber .roundIndex).toNat := by
  have hround : c.toNat % 0x100 = 4 ∧ 60 < c.toNat / 0x100 % 0x100 := h
  obtain ⟨i, hi⟩ := exists_commandOf_of_opcode_le (c := c) (by omega)
  rw [decode_of_commandOf hi, if_pos hround]
  split
  · exact ⟨.rsvdField, rfl, by decide⟩
  · exact ⟨.roundIndex, rfl, by decide⟩

/-- The errors of decoding have the codes 2 to 4, below those of the operand checks. -/
theorem errorNumber_le_of_decode_error {c : Word32} {e : ErrorCode} (h : decode c = .error e) :
    (errorNumber e).toNat ≤ (errorNumber .roundIndex).toNat := by
  unfold decode at h
  split at h
  · cases h
    decide
  · split_ifs at h <;> cases h <;> decide

/-- 1 is the lowest code of an error (60_exceptions.md R162). -/
theorem errorNumber_busy_le (e : ErrorCode) : (errorNumber .busy).toNat ≤ (errorNumber e).toNat := by
  cases e <;> decide

/-! ### The step of a `CMD` write -/

section commandWrite
variable {s : State} {c : Word32} {rest : List Event} (hin : s.inbox = hostWrite 0x04 c :: rest)
include hin

/-- A cause that applies makes the step raise an error, with that cause's code or a lower one
(60_exceptions.md R163). -/
theorem step_raises_of_cause {e : ErrorCode} (h : CauseApplies s c e) :
    ∃ e', (errorNumber e').toNat ≤ (errorNumber e).toNat ∧
      step s = .next (raiseError e' { s with inbox := rest }) := by
  obtain ⟨hbusy, hreject, hissue⟩ := issueChecksInOrder s c rest hin
  by_cases hp : s.pend = none
  case neg => exact ⟨.busy, errorNumber_busy_le e, hbusy hp⟩
  cases e with
  | busy => exact absurd hp h
  | illegalOp => exact ⟨.illegalOp, le_rfl, hreject hp _ (decode_of_opcode_gt h)⟩
  | rsvdField => exact ⟨.rsvdField, le_rfl, hreject hp _ (decode_of_rsvdField_cause h)⟩
  | roundIndex =>
    obtain ⟨e', hd, hle⟩ := decode_of_roundIndex_cause h
    exact ⟨e', hle, hreject hp e' hd⟩
  | aRange =>
    cases hd : decode c with
    | error e' =>
      exact ⟨e', (errorNumber_le_of_decode_error hd).trans (by decide), hreject hp e' hd⟩
    | ok i =>
      obtain ⟨haRange, -⟩ := hissue hp i hd
      exact ⟨.aRange, le_rfl, haRange ((decode_ok hd).1 ▸ h)⟩
  | bRange =>
    cases hd : decode c with
    | error e' =>
      exact ⟨e', (errorNumber_le_of_decode_error hd).trans (by decide), hreject hp e' hd⟩
    | ok i =>
      obtain ⟨haRange, hbRange, -⟩ := hissue hp i hd
      by_cases hA : (opcodeOf i).toNat ∈ [1, 2, 3, 4, 5, 7] ∧ s.build.P ≤ s.a.toNat
      · exact ⟨.aRange, by decide, haRange hA⟩
      · exact ⟨.bRange, le_rfl, hbRange hA ((decode_ok hd).1 ▸ h)⟩

/-- The step answers a state with `ERR` as it was, or raises an error whose cause applies. -/
theorem step_commandWrite_err_cases : ∃ t, step s = .next t ∧
    (t.err = s.err ∨ ∃ e, CauseApplies s c e ∧ t = raiseError e { s with inbox := rest }) := by
  cases hd : decode c with
  | ok i =>
    obtain ⟨t, ht, -⟩ := exec_cases i { s with inbox := rest }
    refine ⟨t, (step_of_decode_ok hin hd).trans ht, ?_⟩
    simpa only [causeApplies_inbox] using exec_err_cases hd ht
  | error e =>
    obtain ⟨e', hcause, hr⟩ := rejectCommand_cause { s with inbox := rest } hd
    exact ⟨_, step_of_decode_error hin hd, .inr ⟨e', causeApplies_inbox.1 hcause, hr⟩⟩

end commandWrite

/-- Settles O21: a cause makes the step raise an error no higher (`step_raises_of_cause`), and an error
raised has its cause (`step_commandWrite_err_cases`). -/
theorem lowestApplicableErrorWins : Obligations.LowestApplicableErrorWins := by
  intro s c rest hin herr
  obtain ⟨t, ht, hcases⟩ := step_commandWrite_err_cases hin
  have hcode (e : ErrorCode) : (raiseError e { s with inbox := rest }).errCode = errorNumber e := by
    simp [herr]
  refine ⟨t, ht, fun e he => ?_, fun hset => ?_⟩
  · obtain ⟨e', hle, hstep⟩ := step_raises_of_cause hin he
    obtain rfl : raiseError e' { s with inbox := rest } = t := by simpa [hstep] using ht
    exact ⟨raiseError_err _ _, by rwa [hcode]⟩
  · obtain hkeep | ⟨e, he, rfl⟩ := hcases
    · simp [hkeep, herr] at hset
    · exact ⟨e, he, hcode e⟩

/-! ### Any other step -/

theorem engineTurn_errCode (s : State) : (engineTurn s).errCode = s.errCode := by
  obtain ⟨-, h⟩ | ⟨q, -, h⟩ := engineTurn_cases s
  · rw [h]
  · rw [h, complete_errCode]

/-- An error present after a host write of a register other than `CMD` was there before it. -/
theorem errCode_eq_of_writeReg_err {v : Word32} {s : State} {g : Reg} (h : (writeReg v s g).err = true) :
    s.err = true ∧ (writeReg v s g).errCode = s.errCode := by
  obtain ⟨k, -, hw⟩ | ⟨k, -, hw⟩ | ⟨-, hw⟩ | hw := writeReg_cases v s g <;> rw [hw] at h ⊢
  · exact ⟨h, rfl⟩
  · exact ⟨h, rfl⟩
  · obtain ⟨hv, herr⟩ : v[1] = false ∧ s.err = true := by simpa using h
    exact ⟨herr, by simp [hv]⟩
  · exact ⟨h, rfl⟩

/-- An error present after a step that is no `CMD` write was there before it, with its code. -/
theorem step_raises_no_error {s t : State} (h : step s = .next t)
    (hcmd : ∀ c rest, s.inbox ≠ hostWrite 0x04 c :: rest) (ht : t.err = true) :
    s.err = true ∧ t.errCode = s.errCode := by
  have hnoCmd {off n : Nat} {c : Word32} {rest : List Event}
      (hin : s.inbox = .access (.write off n c) :: rest) (hok : accessRefusal (.write off n c) = none)
      (hg : regAt off = .cmd) : False := by
    rw [access_write_eq_hostWrite hok, (off_of_regAt_cmd_status off).1 hg] at hin
    exact hcmd c rest hin
  obtain ⟨-, rfl⟩ | ⟨rest, -, rfl⟩ | ⟨rest, -, rfl⟩ | ⟨off, n, rest, -, -, rfl⟩ |
    ⟨off, n, v, rest, -, -, -, rfl⟩ | ⟨off, n, c, rest, i, hin, hok, hg, -, -⟩ |
    ⟨off, n, c, rest, e, hin, hok, hg, -, -⟩ := step_cases h
  · exact ⟨by rwa [engineTurn_err] at ht, engineTurn_errCode s⟩
  · exact ⟨by rwa [engineTurn_err] at ht, engineTurn_errCode _⟩
  · simp at ht
  · exact ⟨ht, rfl⟩
  · exact errCode_eq_of_writeReg_err ht
  · exact (hnoCmd hin hok hg).elim
  · exact (hnoCmd hin hok hg).elim

/-- Settles O22: a cause makes the step raise an error, which writes `ERR` and `ERRCODE` only. -/
theorem errorsArePrecise : Obligations.ErrorsArePrecise := by
  refine ⟨fun s c rest e hin he => ?_, fun s t h hcmd => step_raises_no_error h hcmd⟩
  obtain ⟨e', -, hstep⟩ := step_raises_of_cause hin he
  exact ⟨_, hstep, by simp only [raiseError_eq]⟩

end Sys2Proof.Machine
end

-- Reset, and the byte decoder outside the unit.
section
namespace Sys2Proof.Machine

/-! ### The steps of a reset -/

/-- A reset with an access arriving during it has no transition (70_reset_and_hazards.md R183). -/
theorem step_reset_during {s : State} {x : Access} {rest : List Event}
    (hin : s.inbox = .reset (some x) :: rest) : step s = .refused .accessDuringReset := by
  simp only [step, nextTurn, hin]

/-- The step of a reset is `resetUnit` on what is left to arrive (70_reset_and_hazards.md R180). -/
theorem step_reset {s : State} {rest : List Event} (hin : s.inbox = .reset none :: rest) :
    step s = .next (resetUnit { s with inbox := rest }) := by
  simp only [step, nextTurn, hin]

/-- Settles O8: the step of such a reset is that refusal. -/
theorem accessDuringResetRefused : Obligations.AccessDuringResetRefused :=
  fun _ _ _ => step_reset_during

/-- Settles O10: the step is `resetUnit`, whose fields are those of the reset table. -/
theorem resetStepSetsEveryRegister : Obligations.ResetStepSetsEveryRegister := by
  intro s rest hin
  exact ⟨_, step_reset hin, resetUnit_a _, resetUnit_b _, resetUnit_r _, resetUnit_s _,
    busy_eq_false.2 (resetUnit_pend _), resetUnit_err _, resetUnit_errCode _, resetUnit_pend _, resetUnit_build _, rfl⟩

/-! ### The byte decoder -/

/-- Reading bytes after the number `acc` shifts `acc` up by their count and adds their big-endian value. -/
theorem foldl_bytes_eq (bytes : List (BitVec 8)) (acc : Nat) :
    bytes.foldl (fun acc b => acc * 256 + b.toNat) acc =
      acc * 256 ^ bytes.length +
        ∑ j : Fin bytes.length, bytes[j].toNat * 256 ^ (bytes.length - 1 - j.val) := by
  induction bytes generalizing acc with
  | nil => simp
  | cons b bs ih =>
    have exponent (j : Nat) : bs.length + 1 - 1 - (j + 1) = bs.length - 1 - j := by omega
    rw [List.foldl_cons, ih]
    simp only [List.length_cons, Fin.sum_univ_succ, Fin.getElem_fin, Fin.val_zero, Fin.val_succ,
      List.getElem_cons_zero, List.getElem_cons_succ, exponent]
    rw [Nat.add_sub_cancel, Nat.sub_zero]
    ring

/-- Settles O55: the decoder reads the bytes after 0, and reduces. -/
theorem byteDecoderIsBigEndian : Obligations.ByteDecoderIsBigEndian := by
  intro p bytes
  refine ⟨?_, Nat.zero_mod p⟩
  rw [fieldOfBytes, foldl_bytes_eq, Nat.zero_mul, Nat.zero_add]

end Sys2Proof.Machine
end

-- Decoding and encoding as inverses, the legal words, and the step of a placed word.
section
namespace Sys2Proof.Machine

/-! ### Decoding and encoding are inverses -/

/-- A word decodes exactly if it passes the three tests of decoding (30_encoding.md R71). -/
theorem decode_eq_ok_iff {c : Word32} {i : Instr} :
    decode c = .ok i ↔ commandOf (opcodeField c) (idxField c) = some i ∧ rsvdField c = 0 ∧
      (opcodeField c ≠ 0x04 → idxField c = 0) ∧ (opcodeField c = 0x04 → (idxField c).toNat ≤ 60) := by
  unfold decode
  split
  · simp [*]
  · next j hj =>
    rw [hj]
    split_ifs with hfields hround
    · exact iff_of_false nofun fun ⟨_, hrsvd, hidx, _⟩ =>
        hfields.elim (absurd hrsvd) fun ⟨h4, h0⟩ => h0 (hidx h4)
    · exact iff_of_false nofun fun ⟨_, _, _, hle⟩ => (hle hround.1).not_gt hround.2
    · push Not at hfields hround
      simp only [Except.ok.injEq, Option.some.injEq]
      exact ⟨fun h => ⟨h, hfields.1, hfields.2, hround⟩, fun h => h.1⟩

theorem commandOf_opcodeOf_idxOf (i : Instr) : commandOf (opcodeOf i) (idxOf i) = some i := by
  cases i <;> rfl

theorem idxOf_le_of_wellFormed {i : Instr} (h : i.WellFormed) : (idxOf i).toNat ≤ 60 := by
  cases i with
  | round idx => exact of_decide_eq_true h
  | _ => exact Nat.zero_le 60

theorem decode_encode {i : Instr} (h : i.WellFormed) : decode (encode i) = .ok i := by
  rw [decode_eq_ok_iff, opcodeField_encode, idxField_encode, rsvdField_encode]
  exact ⟨commandOf_opcodeOf_idxOf i, rfl, idxOf_eq_zero, fun _ => idxOf_le_of_wellFormed h⟩

/-- The fields of a word that decodes are those of its command's encoding. -/
theorem encode_of_decode {c : Word32} {i : Instr} (h : decode c = .ok i) : encode i = c := by
  obtain ⟨hcommand, hrsvd, hidx, -⟩ := decode_eq_ok_iff.1 h
  apply word_ext
  · rw [opcodeField_encode, (commandOf_eq_some hcommand).1]
  · rw [idxField_encode, idxOf_of_commandOf hcommand hidx]
  · rw [rsvdField_encode, hrsvd]

/-- Settles O1: a word that decodes has the fields of the encoding, and the encoding passes every test. -/
theorem decodeIsInverseOfEncode : Obligations.DecodeIsInverseOfEncode := fun _ _ =>
  ⟨fun h => ⟨(decode_ok h).2, encode_of_decode h⟩, fun ⟨hw, hc⟩ => hc ▸ decode_encode hw⟩

/-- The legal commands, in the order of the opcode map (30_encoding.md R64). -/
def legalCommands : List Instr :=
  [.nop, .fadd, .fmul, .pow17] ++ (List.range 61).map (fun i => .round (BitVec.ofNat 8 i)) ++
    [.encrypt, .hinit, .habsorb]

theorem legalWords_eq_map_encode : legalWords = legalCommands.map encode := rfl

theorem mem_legalCommands {i : Instr} : i ∈ legalCommands ↔ i.WellFormed := by
  cases i with
  | round idx =>
    have hidx : (∃ n < 61, BitVec.ofNat 8 n = idx) ↔ idx.toNat ≤ 60 :=
      ⟨fun ⟨n, hn, h⟩ => by subst h; simp; omega, fun h => ⟨idx.toNat, by omega, by simp⟩⟩
    simp [legalCommands, Instr.WellFormed, Instr.wellFormed, hidx]
  | _ => simp [legalCommands, Instr.WellFormed, Instr.wellFormed]

/-- A word decodes exactly if it is the encoding of a legal command. -/
theorem exists_decode_iff_mem_legalWords (c : Word32) : (∃ i, decode c = .ok i) ↔ c ∈ legalWords := by
  simp only [legalWords_eq_map_encode, List.mem_map, mem_legalCommands, decodeIsInverseOfEncode c]

/-- Settles O3: the legal words are the encodings of the legal commands. -/
theorem sixtyEightLegalWords : Obligations.SixtyEightLegalWords :=
  ⟨rfl, by decide, exists_decode_iff_mem_legalWords⟩

/-- Settles O4: each word is the encoding of its command. -/
theorem sampleWordsDecode : Obligations.SampleWordsDecode :=
  ⟨rfl, rfl, rfl, rfl, rfl, rfl, rfl, rfl⟩

/-! ### The step of a command word -/

/-- Settles O5: the two branches of decoding are the two forms of the step. -/
theorem stepRunsDecodedCommand : Obligations.StepRunsDecodedCommand :=
  fun _ _ _ hin => ⟨fun _ => step_of_decode_ok hin, fun _ => step_of_decode_error hin⟩

theorem tableWord_toNat (c : Word32) : tableWord 32 c.toNat = c := by
  rw [tableWord, Nat.mod_eq_of_lt c.isLt, BitVec.ofNat_toNat, BitVec.setWidth_eq]

/-- Settles O6: the placed word is the encoding, which decodes, and serving it takes it from the inbox again. -/
theorem fetchWordRunsCommand : Obligations.FetchWordRunsCommand := by
  intro i s hw
  have hd := decode_encode hw
  constructor
  · rw [decodeTableWord, tableWord_toNat, hd]
  · rw [State.withFetchWord, tableWord_toNat]
    exact step_of_decode_ok (queueCommand_inbox _ s) hd

end Sys2Proof.Machine
end

-- What one step does to the registers, and the unit's invariant.
section
namespace Sys2Proof.Machine

/-! ### What one step does to the registers -/

/-- Everything one step can make of a state, the host's side of the bus left as it was, with the event it
takes where the effect depends on it (40_command.md R80). -/
inductive StepEffect (s : State) : State → Prop where
  | engine (hin : s.inbox = [] ∨ ∃ rest, s.inbox = .engine :: rest) : StepEffect s (engineTurn s)
  | reset {rest : List Event} (hin : s.inbox = .reset none :: rest) : StepEffect s (resetUnit s)
  | none : StepEffect s s
  | writeA {k : Fin 8} {v : Word32} {rest : List Event} (hin : s.inbox = hostWrite (0x20 + 4 * k) v :: rest) :
      StepEffect s { s with a := setWord s.a k v }
  | writeB {k : Fin 8} {v : Word32} {rest : List Event} (hin : s.inbox = hostWrite (0x40 + 4 * k) v :: rest) :
      StepEffect s { s with b := setWord s.b k v }
  | clear (v : Word32) : StepEffect s (clearError v s)
  | raise (e : ErrorCode) : StepEffect s (raiseError e s)
  | latch {c : Word32} {rest : List Event} {i : Instr} {op : PendOp} (hin : s.inbox = hostWrite 0x04 c :: rest)
      (hd : decode c = .ok i) (hnop : i ≠ .nop) (hi : s.pend = none) (hok : operandError op s = none) :
      StepEffect s (latch op s)

/-- The words of `A` and `B` are at their offsets only (20_memory.md R41). -/
theorem off_of_regAt_a_b {off : Nat} (hal : off % 4 = 0) (k : Fin 8) :
    (regAt off = .a k → off = 0x20 + 4 * k) ∧ (regAt off = .b k → off = 0x40 + 4 * k) := by
  unfold regAt
  split
  · split <;> simp
  all_goals simp [wordIndex, Fin.ext_iff]
  all_goals omega

theorem clearError_setBus (v : Word32) (s : State) (l : List Event) (w : List Word32) :
    clearError v { s with inbox := l, returned := w } = { clearError v s with inbox := l, returned := w } := by
  simp only [clearError_eq]

section write
variable {s t : State} {off : Nat} {v : Word32} {rest : List Event} (hin : s.inbox = hostWrite off v :: rest)
include hin

/-- A host write of a register has one of these effects, whatever else waits to reach the unit. -/
theorem writeReg_effect (hal : off % 4 = 0) :
    ∃ u w, StepEffect s u ∧
      writeReg v { s with inbox := rest } (regAt off) = { u with inbox := rest, returned := w } := by
  obtain ⟨k, hg, hw⟩ | ⟨k, hg, hw⟩ | ⟨-, hw⟩ | hw := writeReg_cases v { s with inbox := rest } (regAt off)
  · rw [(off_of_regAt_a_b hal k).1 hg] at hin
    exact ⟨_, _, .writeA hin, hw⟩
  · rw [(off_of_regAt_a_b hal k).2 hg] at hin
    exact ⟨_, _, .writeB hin, hw⟩
  · exact ⟨_, _, .clear v, hw.trans (clearError_setBus v s rest s.returned)⟩
  · exact ⟨_, _, .none, hw⟩

/-- So has a decoded command: on an idle unit `nop` changes nothing, and any other is latched or fails. -/
theorem exec_effect {i : Instr} (hcmd : off = 0x04) (hd : decode v = .ok i)
    (h : exec i { s with inbox := rest } = .next t) :
    ∃ u w, StepEffect s u ∧ t = { u with inbox := rest, returned := w } := by
  obtain ⟨t', ht', hcases⟩ := exec_cases i { s with inbox := rest }
  obtain rfl : t' = t := by rw [ht'] at h; cases h; rfl
  obtain ⟨e, rfl⟩ | ⟨-, -, rfl⟩ | ⟨hi, op, hok, rfl⟩ := hcases
  · exact ⟨_, _, .raise e, raiseError_setBus e s rest s.returned⟩
  · exact ⟨_, _, .none, rfl⟩
  · refine ⟨_, _, .latch (hcmd ▸ hin) hd (fun hnop => ?_) hi hok, rfl⟩
    subst hnop
    rw [exec_nop_of_idle hi, Host.Outcome.next.injEq] at h
    have hi' : s.pend = none := hi
    simpa [hi'] using congrArg State.pend h

end write

/-- Everything one step that answers a next state does: it takes the head of the inbox, may answer a read,
and has one of the effects on the registers. -/
theorem step_effect {s t : State} (h : step s = .next t) :
    ∃ u w, StepEffect s u ∧ t = { u with inbox := s.inbox.tail, returned := w } := by
  obtain ⟨hin, rfl⟩ | ⟨rest, hin, rfl⟩ | ⟨rest, hin, rfl⟩ | ⟨off, n, rest, hin, -, rfl⟩ |
    ⟨off, n, v, rest, hin, hok, -, rfl⟩ | ⟨off, n, c, rest, i, hin, hok, hcmd, hd, hex⟩ |
    ⟨off, n, c, rest, e, hin, -, -, -, rfl⟩ := step_cases h <;> rw [hin, List.tail]
  · refine ⟨_, s.returned, .engine (.inl hin), ?_⟩
    rw [← engineTurn_setBus, ← hin]
  · exact ⟨_, _, .engine (.inr ⟨rest, hin⟩), engineTurn_setBus s rest s.returned⟩
  · exact ⟨_, _, .reset hin, rfl⟩
  · exact ⟨_, _, .none, rfl⟩
  · rw [access_write_eq_hostWrite hok] at hin
    exact writeReg_effect hin ((accessRefusal_eq_none _).1 hok).2.1
  · rw [access_write_eq_hostWrite hok] at hin
    exact exec_effect hin ((off_of_regAt_cmd_status off).1 hcmd) hd hex
  · obtain ⟨e', he⟩ := rejectCommand_eq e { s with inbox := rest }
    exact ⟨_, _, .raise e', he.trans (raiseError_setBus e' s rest s.returned)⟩

theorem step_inbox {s t : State} (h : step s = .next t) : t.inbox = s.inbox.tail := by
  obtain ⟨u, w, -, rfl⟩ := step_effect h
  rfl

/-! ### The unit's invariant -/

/-- `hinit` leaves `R`. -/
theorem complete_r_of_hinit {q : Pending} (s : State) (h : q.op = .hinit) : (complete q s).r = s.r := by
  simp only [complete, h]
  rfl

/-- Every operation outside the hash leaves `S`. -/
theorem complete_s_of_ne {q : Pending} (s : State) (hinit : q.op ≠ .hinit) (habsorb : q.op ≠ .habsorb) :
    (complete q s).s = s.s := by
  rw [complete_eq_finishR s hinit habsorb, finishR_s]

/-- What a completion leaves in `R` and in `S` is below `P` (10_state.md R25). -/
theorem complete_r_lt_and_s_lt (q : Pending) {s : State} (h : s.Inv) :
    (complete q s).r.toNat < s.build.P ∧ (complete q s).s.toNat < s.build.P := by
  have hvalue : (fieldWord (completionValue s.build q)).toNat < s.build.P := by
    rw [fieldWord_toNat (completionValue_lt h.legal.P_pos q)]
    exact completionValue_lt h.legal.P_pos q
  constructor
  · by_cases hinit : q.op = .hinit
    · rw [complete_r_of_hinit s hinit]
      exact h.r_lt
    · rwa [complete_r s hinit]
  · by_cases hhash : q.op = .hinit ∨ q.op = .habsorb
    · rwa [complete_s s hhash]
    · obtain ⟨hinit, habsorb⟩ := not_or.1 hhash
      rw [complete_s_of_ne s hinit habsorb]
      exact h.s_lt

section inv
variable {s : State} (h : s.Inv)
include h

theorem State.Inv.complete (q : Pending) : (complete q s).Inv where
  legal := by rw [complete_build]; exact h.legal
  r_lt := by rw [complete_build]; exact (complete_r_lt_and_s_lt q h).1
  s_lt := by rw [complete_build]; exact (complete_r_lt_and_s_lt q h).2
  code_zero := by rw [complete_err, complete_errCode]; exact h.code_zero
  code_le := by rw [complete_errCode]; exact h.code_le
  pend_ok := by simp

theorem State.Inv.engineTurn : (engineTurn s).Inv := by
  obtain ⟨-, hs⟩ | ⟨q, -, hq⟩ := engineTurn_cases s
  · rwa [hs]
  · rw [hq]
    exact h.complete q

theorem State.Inv.resetUnit : (resetUnit s).Inv :=
  ⟨h.legal, h.legal.P_pos, h.legal.P_pos, by simp, by simp, nofun⟩

/-- The invariant says nothing of the operands or of the host's side of the bus. -/
theorem State.Inv.setOperands_setBus (a b : Word256) (l : List Event) (w : List Word32) :
    State.Inv { s with a := a, b := b, inbox := l, returned := w } :=
  ⟨h.legal, h.r_lt, h.s_lt, h.code_zero, h.code_le, h.pend_ok⟩

theorem State.Inv.setErr {err : Bool} {code : BitVec 4} (hzero : err = false ↔ code = 0) (hle : code.toNat ≤ 6) :
    State.Inv { s with err := err, errCode := code } :=
  ⟨h.legal, h.r_lt, h.s_lt, hzero, hle, h.pend_ok⟩

theorem State.Inv.clearError (v : Word32) : (clearError v s).Inv := by
  rw [clearError_eq]
  cases v[1]
  · exact h.setErr h.code_zero h.code_le
  · exact h.setErr (by simp) (by simp)

theorem State.Inv.raiseError (e : ErrorCode) : (raiseError e s).Inv := by
  have hnumber : errorNumber e ≠ 0 ∧ (errorNumber e).toNat ≤ 6 := by cases e <;> decide
  rw [raiseError_eq]
  cases herr : s.err
  · exact h.setErr (iff_of_false nofun hnumber.1) hnumber.2
  · exact h.setErr (by simpa [herr] using h.code_zero) h.code_le

theorem State.Inv.latch {op : PendOp} (hok : operandError op s = none) : (latch op s).Inv := by
  obtain ⟨hA, hB⟩ := operandError_eq_none.1 hok
  refine ⟨h.legal, h.r_lt, h.s_lt, h.code_zero, h.code_le, fun q hq => ?_⟩
  cases hq
  exact ⟨hA, hB, h.s_lt⟩

theorem State.Inv.stepEffect {u : State} (hu : StepEffect s u) : u.Inv := by
  cases hu with
  | engine hin => exact h.engineTurn
  | reset hin => exact h.resetUnit
  | none => exact h
  | writeA hin => exact h.setOperands_setBus _ s.b s.inbox s.returned
  | writeB hin => exact h.setOperands_setBus s.a _ s.inbox s.returned
  | clear v => exact h.clearError v
  | raise e => exact h.raiseError e
  | latch hin hd hnop hi hok => exact h.latch hok

end inv

/-- Settles O36: every effect of a step keeps the invariant, which does not speak of the bus. -/
theorem stepKeepsUnitInvariant : Obligations.StepKeepsUnitInvariant := by
  intro s t h hstep
  obtain ⟨u, w, hu, rfl⟩ := step_effect hstep
  exact (h.stepEffect hu).setOperands_setBus u.a u.b _ w

/-- Settles O37: the configuration of the unit is legal, and every register is 0. -/
theorem resetMeetsUnitInvariant : Obligations.ResetMeetsUnitInvariant :=
  ⟨Config.unit.legal, Config.unit.legal.P_pos, Config.unit.legal.P_pos, iff_of_true rfl rfl, by decide, nofun⟩

end Sys2Proof.Machine
end

-- Who writes each register: the operands, the results and the pending record, over one step.
section
namespace Sys2Proof.Machine

/-! ### Reads of a register and its field -/

/-- A register other than `STATUS` shows the configuration or one of the four data registers
(40_command.md R81). -/
theorem readReg_congr {s t : State} {g : Reg} (hg : g ≠ .status) (hbuild : t.build = s.build) (ha : t.a = s.a)
    (hb : t.b = s.b) (hr : t.r = s.r ∨ ∀ k, g ≠ .r k) (hs : t.s = s.s ∨ ∀ k, g ≠ .s k) :
    readReg t g = readReg s g := by
  cases g with
  | status => exact absurd rfl hg
  | a k => rw [readReg, readReg, ha]
  | b k => rw [readReg, readReg, hb]
  | r k => rw [readReg, readReg, hr.resolve_right fun h => h k rfl]
  | s k => rw [readReg, readReg, hs.resolve_right fun h => h k rfl]
  | modulus k => rw [readReg, readReg, hbuild]
  | _ => rfl

/-- Settles O17: no register is read from `RC`. -/
theorem roundConstantsNotReadable : Obligations.RoundConstantsNotReadable := by
  intro s rc g
  cases g <;> rfl

/-! ### The frames of issue and of completion -/

/-- Settles O32: an error leaves everything but `ERR` and `ERRCODE`, a latch everything but the record. -/
theorem issueFrame : Obligations.IssueFrame := by
  intro i s t h
  obtain ⟨u, hu, hcases⟩ := exec_cases i s
  obtain rfl : u = t := by rw [hu] at h; cases h; rfl
  obtain ⟨e, rfl⟩ | ⟨-, -, rfl⟩ | ⟨hi, op, -, rfl⟩ := hcases
  · have hread (g : Reg) (hg : g ≠ .status) : readReg (raiseError e s) g = readReg s g :=
      readReg_congr hg (by simp) (by simp) (by simp) (.inl (by simp)) (.inl (by simp))
    simp +contextual [hread]
  · simp
  · exact ⟨rfl, rfl, rfl, rfl, rfl, rfl, rfl, fun g hg => readReg_congr hg rfl rfl rfl (.inl rfl) (.inl rfl),
      absurd hi, fun _ => ⟨rfl, rfl⟩, fun herr => ⟨herr, rfl⟩⟩

/-- `habsorb` leaves `R` equal to `S`. -/
theorem complete_r_eq_s {q : Pending} (s : State) (h : q.op = .habsorb) : (complete q s).r = (complete q s).s := by
  rw [complete_r s (by simp [h]), complete_s s (.inr h)]

/-- Settles O33: the fields a completion leaves, and which of `R` and `S` each operation writes. -/
theorem completionFrame : Obligations.CompletionFrame := by
  intro s q hq
  rw [engineTurn_of_pend hq]
  exact ⟨complete_pend q s, complete_build q s, complete_a q s, complete_b q s, complete_err q s,
    complete_errCode q s, complete_inbox q s, complete_returned q s, complete_s_of_ne s,
    complete_r_of_hinit s, complete_r_eq_s s,
    fun g hg hr hs => readReg_congr hg (complete_build q s) (complete_a q s) (complete_b q s) (.inr hr) (.inr hs)⟩

/-! ### Register writes and completion -/

theorem complete_setOperands (q : Pending) (s : State) (a b : Word256) :
    complete q { s with a := a, b := b } = { complete q s with a := a, b := b } := by
  unfold complete
  split <;> rfl

theorem complete_writeReg (v : Word32) (q : Pending) (s : State) (g : Reg) :
    complete q (writeReg v s g) = writeReg v (complete q s) g := by
  cases g with
  | status => simp only [writeReg, clearError_eq, complete_setErr, complete_err, complete_errCode]
  | a k =>
    rw [writeReg, writeReg, complete_a]
    exact (complete_setOperands q s _ s.b).trans (by rw [← complete_b q s])
  | b k =>
    rw [writeReg, writeReg, complete_b]
    exact (complete_setOperands q s s.a _).trans (by rw [← complete_a q s])
  | _ => rfl

@[simp] theorem writeReg_pend (v : Word32) (s : State) (g : Reg) : (writeReg v s g).pend = s.pend := by
  obtain ⟨k, -, h⟩ | ⟨k, -, h⟩ | ⟨-, h⟩ | h := writeReg_cases v s g
  · rw [h]
  · rw [h]
  · rw [h, clearError_pend]
  · rw [h]

/-- Settles O35: an idle engine changes nothing, and the completion of a pending command neither reads nor
writes what the host's write does. -/
theorem registerWritesCommuteWithCompletion : Obligations.RegisterWritesCommuteWithCompletion := by
  intro v s g
  obtain ⟨hi, h⟩ | ⟨q, hq, h⟩ := engineTurn_cases s
  · rw [h, engineTurn_of_idle ((writeReg_pend v s g).trans hi)]
  · rw [h, engineTurn_of_pend ((writeReg_pend v s g).trans hq), complete_writeReg]

/-! ### The writers of `S` and `R` -/

/-- Only the engine's turn on a pending command and reset reach `R`, `S` and a pending record. -/
theorem step_results_cases {s t : State} (h : step s = .next t) :
    (t.r = s.r ∧ t.s = s.s ∧ ∀ q, s.pend = some q → t.pend = some q) ∨
    (∃ rest, s.inbox = .reset none :: rest) ∧ t.r = 0 ∧ t.s = 0 ∧ t.pend = none ∨
    (s.inbox = [] ∨ ∃ rest, s.inbox = .engine :: rest) ∧
      ∃ q, s.pend = some q ∧ t.r = (complete q s).r ∧ t.s = (complete q s).s ∧ t.pend = none := by
  obtain ⟨u, w, hu, rfl⟩ := step_effect h
  cases hu with
  | engine hin =>
    obtain ⟨hi, hturn⟩ | ⟨q, hq, hturn⟩ := engineTurn_cases s
    · exact .inl (by simp [hturn])
    · exact .inr (.inr ⟨hin, q, hq, by simp [hturn]⟩)
  | reset hin => exact .inr (.inl ⟨⟨_, hin⟩, rfl, rfl, rfl⟩)
  | clear v => exact .inl (by simp)
  | raise e => exact .inl (by simp)
  | latch hin hd hnop hi hok => exact .inl ⟨rfl, rfl, fun q hq => absurd (hi.symm.trans hq) nofun⟩
  | _ => exact .inl ⟨rfl, rfl, fun _ hq => hq⟩

/-- Settles O39: `step_results_cases`, and the value each completion leaves in `S`. -/
theorem chainingStateWrittenOnlyByHash : Obligations.ChainingStateWrittenOnlyByHash := by
  intro s t h hne
  obtain ⟨-, hs, -⟩ | ⟨hin, -, hs, -⟩ | ⟨-, q, hq, hr, hs, hp⟩ := step_results_cases h
  · exact absurd hs hne
  · exact .inl ⟨hs, hin⟩
  · refine .inr ⟨q, hq, hp, ?_⟩
    by_cases hinit : q.op = .hinit
    · refine .inl ⟨hinit, ?_⟩
      rw [hs, complete_s s (.inl hinit), completionValue, hinit]
      rfl
    by_cases habsorb : q.op = .habsorb
    · refine .inr ⟨habsorb, ?_, by rw [hr, hs, complete_r_eq_s s habsorb]⟩
      rw [hs, complete_s s (.inr habsorb), completionValue, habsorb]
      rfl
    · exact absurd (hs.trans (complete_s_of_ne s hinit habsorb)) hne

/-- Settles O40: `step_results_cases`, and the completion of `hinit` leaves `R`. -/
theorem resultWrittenOnlyAtCompletion : Obligations.ResultWrittenOnlyAtCompletion := by
  intro s t h hne
  obtain ⟨hr, -, -⟩ | ⟨hin, hr, -, -⟩ | ⟨-, q, hq, hr, -, hp⟩ := step_results_cases h
  · exact absurd hr hne
  · exact .inl ⟨hr, hin⟩
  · exact .inr ⟨q, hq, fun hinit => hne (hr.trans (complete_r_of_hinit s hinit)), hp⟩

/-! ### The writers of `A` and `B` -/

@[simp] theorem engineTurn_a (s : State) : (engineTurn s).a = s.a := by
  obtain ⟨-, h⟩ | ⟨q, -, h⟩ := engineTurn_cases s
  · rw [h]
  · rw [h, complete_a]

@[simp] theorem engineTurn_b (s : State) : (engineTurn s).b = s.b := by
  obtain ⟨-, h⟩ | ⟨q, -, h⟩ := engineTurn_cases s
  · rw [h]
  · rw [h, complete_b]

theorem getWord_setWord (v : Word256) (k l : Fin 8) (w : Word32) :
    getWord (setWord v k w) l = if l = k then w else getWord v l := by
  split
  · next h => rw [h, getWord_setWord_self]
  · next h => exact getWord_setWord_ne v w h

/-- Settles O41: of the effects of a step only reset and the two word writes reach `A` or `B`. -/
theorem operandsWrittenOnlyByHost : Obligations.OperandsWrittenOnlyByHost := by
  intro s t h
  obtain ⟨u, w, hu, rfl⟩ := step_effect h
  cases hu with
  | reset hin => exact ⟨fun _ => .inl ⟨rfl, _, hin⟩, fun _ => .inl ⟨rfl, _, hin⟩⟩
  | writeA hin => exact ⟨fun _ => .inr ⟨_, _, _, hin, fun l => getWord_setWord s.a _ l _⟩, absurd rfl⟩
  | writeB hin => exact ⟨absurd rfl, fun _ => .inr ⟨_, _, _, hin, fun l => getWord_setWord s.b _ l _⟩⟩
  | engine hin => exact ⟨absurd (engineTurn_a s), absurd (engineTurn_b s)⟩
  | clear v => exact ⟨absurd (clearError_a v s), absurd (clearError_b v s)⟩
  | raise e => exact ⟨absurd (raiseError_a e s), absurd (raiseError_b e s)⟩
  | none => exact ⟨absurd rfl, absurd rfl⟩
  | latch hin hd hnop hi hok => exact ⟨absurd rfl, absurd rfl⟩

/-! ### The pending record -/

/-- A command becomes pending by the latch of a decoded command other than `nop` only. -/
theorem step_of_newly_pending {s t : State} (h : step s = .next t) (hs : s.pend = none) (ht : t.pend ≠ none) :
    ∃ c rest i, s.inbox = hostWrite 0x04 c :: rest ∧ decode c = .ok i ∧ i ≠ .nop := by
  obtain ⟨u, w, hu, rfl⟩ := step_effect h
  cases hu with
  | latch hin hd hnop hi hok => exact ⟨_, _, _, hin, hd, hnop⟩
  | engine hin => exact absurd (by rw [engineTurn_of_idle hs, hs]) ht
  | reset hin => exact absurd rfl ht
  | clear v => exact absurd ((clearError_pend v s).trans hs) ht
  | raise e => exact absurd ((raiseError_pend e s).trans hs) ht
  | _ => exact absurd hs ht

/-- Settles O43: `step_of_newly_pending`, and what `step_results_cases` says of a pending record. -/
theorem busyChangesOnlyByIssueAndCompletion : Obligations.BusyChangesOnlyByIssueAndCompletion := by
  intro s t h
  refine ⟨step_of_newly_pending h, fun q hq => ?_⟩
  obtain ⟨-, -, hkeep⟩ | ⟨hin, -, -, hp⟩ | ⟨-, q', hq', hr, hs, hp⟩ := step_results_cases h
  · exact .inl (hkeep q hq)
  · exact .inr ⟨hp, .inl hin⟩
  · obtain rfl : q' = q := Option.some.inj (hq'.symm.trans hq)
    exact .inr ⟨hp, .inr ⟨hr, hs⟩⟩

end Sys2Proof.Machine
end

-- Which steps are refused, and what host accesses do: byte views, operand loads, the poll of `STATUS`.
section
namespace Sys2Proof.Machine

/-! ### Which steps are refused -/

/-- A 4-byte access is one that the host's assembler writes (20_memory.md R44, 30_encoding.md R72). -/
theorem access_eq_of_bytes {x : Access} (h : accessBytes x = 4) :
    Event.access x = hostRead (accessOff x) ∨ ∃ v, Event.access x = hostWrite (accessOff x) v := by
  cases x with
  | read off n =>
    obtain rfl : n = 4 := h
    exact .inl rfl
  | write off n v =>
    obtain rfl : n = 4 := h
    exact .inr ⟨v, rfl⟩

/-- Every `CMD` write is answered, its command accepted or not. -/
theorem step_commandWrite {s : State} {c : Word32} {rest : List Event} (hin : s.inbox = hostWrite 0x04 c :: rest) :
    ∃ t, step s = .next t := by
  obtain ⟨t, ht, -⟩ := step_commandWrite_err_cases hin
  exact ⟨t, ht⟩

theorem step_engine {s : State} {rest : List Event} (hin : s.inbox = .engine :: rest) :
    step s = .next (engineTurn { s with inbox := rest }) := by
  simp only [step, nextTurn, hin]

/-- The unit has a transition for every servable event (20_memory.md R50). -/
theorem step_of_servable {s : State} {e : Event} {rest : List Event} (hin : s.inbox = e :: rest)
    (he : Servable e) : ∃ t, step s = .next t := by
  cases e with
  | engine => exact ⟨_, step_engine hin⟩
  | reset during =>
    obtain rfl : during = none := he
    exact ⟨_, step_reset hin⟩
  | access x =>
    obtain ⟨hbytes, hal, hlt⟩ := he
    obtain hx | ⟨v, hx⟩ := access_eq_of_bytes hbytes <;> rw [hx] at hin
    · exact ⟨_, step_hostRead hin hal hlt⟩
    · by_cases hcmd : regAt (accessOff x) = .cmd
      · rw [(off_of_regAt_cmd_status _).1 hcmd] at hin
        exact step_commandWrite hin
      · exact ⟨_, step_hostWrite hin hal hlt hcmd⟩

/-- It has none for any other event (20_memory.md R45, 70_reset_and_hazards.md R183). -/
theorem step_of_not_servable {s : State} {e : Event} {rest : List Event} (hin : s.inbox = e :: rest)
    (he : ¬ Servable e) : ∃ why, step s = .refused why := by
  cases e with
  | engine => exact absurd trivial he
  | reset during =>
    cases during with
    | none => exact absurd rfl he
    | some x => exact ⟨_, step_reset_during hin⟩
  | access x =>
    obtain ⟨why, hwhy⟩ := Option.ne_none_iff_exists'.1 (mt (accessRefusal_eq_none x).1 he)
    exact ⟨why, by simp only [step, nextTurn, hin, serveAccess, hwhy]⟩

theorem step_of_inbox_nil {s : State} (hin : s.inbox = []) : step s = .next (engineTurn s) := by
  simp only [step, nextTurn, hin]

/-- Settles O7: with an empty inbox the engine takes its turn, and the head of any other decides. -/
theorem onlyBadAccessesRefused : Obligations.OnlyBadAccessesRefused := by
  refine fun s => ⟨fun ⟨why, hstep⟩ => ?_, fun ⟨e, rest, hin, he⟩ => step_of_not_servable hin he⟩
  cases hin : s.inbox with
  | nil => simp [step_of_inbox_nil hin] at hstep
  | cons e rest =>
    refine ⟨e, rest, rfl, fun he => ?_⟩
    obtain ⟨t, ht⟩ := step_of_servable hin he
    simp [ht] at hstep

/-! ### The views by byte address -/

theorem blockOffset_base_add (c : Build) {off : Nat} (hlt : off < 0x100) :
    blockOffset c (c.base + off) = some off := by
  rw [blockOffset, if_pos (by omega), Nat.add_sub_cancel_left]

theorem blockOffset_outside {c : Build} {addr : Nat} (h : addr < c.base ∨ c.base + 0x100 ≤ addr) :
    blockOffset c addr = none :=
  if_neg (by omega)

/-- Settles O16: a byte of an aligned word has the word's offset and its own number as quotient and remainder
by 4. -/
theorem bytesOfWordsAreLittleEndian : Obligations.BytesOfWordsAreLittleEndian := by
  refine fun s addr _ => ⟨?_, fun hout => ?_⟩
  · rintro off rfl hal hlt
    refine ⟨by rw [memRead, blockOffset_base_add _ hlt]; exact if_pos hal, fun i => ?_⟩
    have hbyte : (off + i) % 4 = i := by omega
    rw [memByte, Nat.add_assoc, blockOffset_base_add _ (by omega)]
    simp only [hbyte, Nat.add_sub_cancel]
  · rw [memRead, memByte, blockOffset_outside hout]
    exact ⟨rfl, rfl⟩

/-! ### Loading an operand -/

/-- If the writes at the eight offsets from `off` set the words of the register that `load` gives a value,
the eight writes of `v` load `v`. -/
theorem reaches_writeWords {off : Nat} {load : Word256 → State} {v x : Word256} {rest : List Event}
    (hword : ∀ x k w l, step { load x with inbox := hostWrite (off + 4 * k.val) w :: l } =
      .next { load (setWord x k w) with inbox := l })
    (hin : (load x).inbox = writeWords off v ++ rest) :
    Reaches 8 (load x) { load v with inbox := rest } := by
  have hwords (l : List (Fin 8)) (x : Word256) : Reaches l.length
      { load x with inbox := (l.map fun k => hostWrite (off + 4 * k.val) (getWord v k)) ++ rest }
      { load (l.foldl (fun x k => setWord x k (getWord v k)) x) with inbox := rest } := by
    induction l generalizing x with
    | nil => exact reaches_zero.2 rfl
    | cons k l ih => exact reaches_succ.2 ⟨_, hword x k (getWord v k) _, ih _⟩
  have hall := hwords (List.finRange 8) x
  rwa [foldl_setWord_finRange, ← writeWords, ← hin] at hall

theorem step_write_a (s : State) (x : Word256) (k : Fin 8) (w : Word32) (l : List Event) :
    step { s with a := x, inbox := hostWrite (0x20 + 4 * k) w :: l } =
      .next { s with a := setWord x k w, inbox := l } := by
  obtain ⟨ha, -⟩ := regAt_words k
  rw [step_hostWrite rfl (by omega) (by omega) (by simp [ha]), ha]
  rfl

theorem step_write_b (s : State) (x : Word256) (k : Fin 8) (w : Word32) (l : List Event) :
    step { s with b := x, inbox := hostWrite (0x40 + 4 * k) w :: l } =
      .next { s with b := setWord x k w, inbox := l } := by
  obtain ⟨-, hb, -⟩ := regAt_words k
  rw [step_hostWrite rfl (by omega) (by omega) (by simp [hb]), hb]
  rfl

/-- Settles O15: each write sets its word of the operand, and the eight words make the value. -/
theorem eightWritesLoadAnOperand : Obligations.EightWritesLoadAnOperand := fun s _ _ =>
  ⟨reaches_writeWords (load := fun x => { s with a := x }) (x := s.a) (step_write_a s),
    reaches_writeWords (load := fun x => { s with b := x }) (x := s.b) (step_write_b s)⟩

/-! ### The poll of `STATUS` -/

theorem statusWord_bit_zero (s : State) : (statusWord s)[0] = s.busy := by
  rw [statusWord]
  exact (BitVec.getElem_append ..).trans (by simp)

/-- Settles O45: the read returns `STATUS`, whose bit 0 is `BUSY`. -/
theorem statusReadShowsCompletion : Obligations.StatusReadShowsCompletion := by
  intro s rest hin
  refine ⟨_, statusWord s, step_hostRead hin rfl (by decide), rfl, ?_, rfl, rfl, rfl⟩
  rw [statusWord_bit_zero, busy_eq_false]

/-! ### The configuration -/

/-- Settles O18: the check is the conjunction of the constraints. -/
theorem illegalConfigurationRefused : Obligations.IllegalConfigurationRefused := by
  refine fun c => ⟨fun h => ⟨⟨c, h⟩, ?_, rfl⟩, fun h => ?_⟩
  · exact dif_pos ⟨h.prime, h.three_le, h.coprime, h.constants_lt, h.base_aligned⟩
  · exact dif_neg fun ⟨hp, h3, hgcd, hrc, hbase⟩ => h ⟨hp, h3, hgcd, hrc, hbase⟩

end Sys2Proof.Machine
end

-- Runs: results hidden while accesses are served, bounded completion, and errors that nothing clears.
section
namespace Sys2Proof.Machine

/-! ### Runs of a deterministic unit -/

/-- A run passes through the state its first steps reach. -/
theorem reaches_of_reaches_add {m k : Nat} {s u t : State} (hu : Reaches m s u) (ht : Reaches (m + k) s t) :
    Reaches k u t := by
  induction m generalizing s with
  | zero =>
    obtain rfl := reaches_zero.1 hu
    rwa [Nat.zero_add] at ht
  | succ m ih =>
    rw [Nat.succ_add] at ht
    obtain ⟨v, hv, hvu⟩ := reaches_succ.1 hu
    obtain ⟨v', hv', hvt⟩ := reaches_succ.1 ht
    obtain rfl : v' = v := by rw [hv] at hv'; cases hv'; rfl
    exact ih hvu hvt

/-! ### Results of a pending command -/

/-- A host access does not reach `R`, `S` or a pending record. -/
theorem step_access_keeps_results {s t : State} {x : Access} {rest : List Event}
    (hin : s.inbox = .access x :: rest) (h : step s = .next t) :
    t.r = s.r ∧ t.s = s.s ∧ ∀ q, s.pend = some q → t.pend = some q := by
  obtain hkeep | ⟨⟨rest', hin'⟩, -⟩ | ⟨hin' | ⟨rest', hin'⟩, -⟩ := step_results_cases h
  · exact hkeep
  all_goals simp [hin] at hin'

/-- Settles O44: induction on the number of accesses. -/
theorem pendingResultsNotVisible : Obligations.PendingResultsNotVisible := by
  intro n
  induction n with
  | zero =>
    intro s t _ _ h
    obtain rfl := reaches_zero.1 h
    exact ⟨rfl, rfl, fun _ hq => hq⟩
  | succ n ih =>
    intro s t hlen haccess h
    obtain ⟨u, hu, hut⟩ := reaches_succ.1 h
    cases hin : s.inbox with
    | nil => simp [hin] at hlen
    | cons e rest =>
      have hrest : u.inbox = rest := by rw [step_inbox hu, hin, List.tail]
      rw [hin, List.take_succ_cons, List.forall_mem_cons] at haccess
      obtain ⟨⟨x, rfl⟩, haccess⟩ := haccess
      obtain ⟨hr, hs, hpend⟩ := step_access_keeps_results hin hu
      obtain ⟨hr', hs', hpend'⟩ := ih u t (by simpa [hin, hrest] using hlen) (by rwa [hrest]) hut
      exact ⟨hr'.trans hr, hs'.trans hs, fun q hq => hpend' q (hpend q hq)⟩

/-! ### Every command completes -/

/-- With servable events only, one step more than their number leads to an idle unit with an empty inbox. -/
theorem reaches_idle {s : State} {l : List Event} (hin : s.inbox = l) (hl : ∀ e ∈ l, Servable e) :
    ∃ t, Reaches (l.length + 1) s t ∧ t.pend = none ∧ t.inbox = [] := by
  induction l generalizing s with
  | nil =>
    have hstep := step_of_inbox_nil hin
    refine ⟨_, reaches_one hstep, ?_, by rw [step_inbox hstep, hin, List.tail]⟩
    obtain ⟨hi, h⟩ | ⟨q, -, h⟩ := engineTurn_cases s
    · rw [h, hi]
    · rw [h, complete_pend]
  | cons e l ih =>
    rw [List.forall_mem_cons] at hl
    obtain ⟨u, hu⟩ := step_of_servable hin hl.1
    obtain ⟨t, ht, hdone⟩ := ih (by rw [step_inbox hu, hin, List.tail]) hl.2
    exact ⟨t, reaches_succ.2 ⟨u, hu, ht⟩, hdone⟩

/-- What a completion leaves in `R` and `S` is a function of the record, the configuration, `R` and `S`. -/
theorem complete_results_congr (q : Pending) {s t : State} (hbuild : t.build = s.build) (hr : t.r = s.r)
    (hs : t.s = s.s) : (complete q t).r = (complete q s).r ∧ (complete q t).s = (complete q s).s := by
  constructor
  · by_cases hinit : q.op = .hinit
    · rw [complete_r_of_hinit t hinit, complete_r_of_hinit s hinit, hr]
    · rw [complete_r t hinit, complete_r s hinit, hbuild]
  · by_cases hhash : q.op = .hinit ∨ q.op = .habsorb
    · rw [complete_s t hhash, complete_s s hhash, hbuild]
    · obtain ⟨hinit, habsorb⟩ := not_or.1 hhash
      rw [complete_s_of_ne t hinit habsorb, complete_s_of_ne s hinit habsorb, hs]

/-- The pending command `q` of `s` stays as it is for `n` steps, and the next step ends it: a reset, or one
that leaves the results of its completion. -/
def EndsAfter (n : Nat) (q : Pending) (s : State) : Prop :=
  ∃ u v, (∀ m ≤ n, ∀ w, Reaches m s w → w.pend = some q) ∧ Reaches n s u ∧ step u = .next v ∧
    v.pend = none ∧ (s.inbox[n]? = some (.reset none) ∨ (v.r = (complete q s).r ∧ v.s = (complete q s).s))

/-- A first step ends the pending command, or leaves it and its results as they were. -/
theorem endsAfter_zero_or_keeps {q : Pending} {s t : State} (hq : s.pend = some q) (h : step s = .next t) :
    EndsAfter 0 q s ∨
      s.inbox ≠ [] ∧ t.pend = some q ∧ (complete q t).r = (complete q s).r ∧ (complete q t).s = (complete q s).s := by
  have hstart (m : Nat) (hm : m ≤ 0) (w : State) (hw : Reaches m s w) : w.pend = some q := by
    obtain rfl := Nat.le_zero.1 hm
    rwa [reaches_zero.1 hw]
  obtain ⟨hr, hs, hkeep⟩ | ⟨⟨rest, hin⟩, -, -, hp⟩ | ⟨-, q', hq', hr, hs, hp⟩ := step_results_cases h
  · refine .inr ⟨fun hnil => ?_, hkeep q hq, complete_results_congr q (step_build h) hr hs⟩
    obtain rfl : engineTurn s = t := by simpa [step_of_inbox_nil hnil] using h
    simpa [engineTurn_of_pend hq] using hkeep q hq
  · exact .inl ⟨s, t, hstart, reaches_zero.2 rfl, h, hp, .inl (by simp [hin])⟩
  · obtain rfl : q' = q := Option.some.inj (hq'.symm.trans hq)
    exact .inl ⟨s, t, hstart, reaches_zero.2 rfl, h, hp, .inr ⟨hr, hs⟩⟩

/-- A step that keeps the pending command and its results puts off its end by one. -/
theorem EndsAfter.succ {n : Nat} {q : Pending} {s t : State} (hq : s.pend = some q) (h : step s = .next t)
    (hr : (complete q t).r = (complete q s).r) (hs : (complete q t).s = (complete q s).s)
    (ht : EndsAfter n q t) : EndsAfter (n + 1) q s := by
  obtain ⟨u, v, hpend, hu, hv, hp, hend⟩ := ht
  refine ⟨u, v, fun m hm w hw => ?_, reaches_succ.2 ⟨t, h, hu⟩, hv, hp, ?_⟩
  · cases m with
    | zero => rwa [reaches_zero.1 hw]
    | succ m =>
      obtain ⟨t', ht', hw⟩ := reaches_succ.1 hw
      obtain rfl : t' = t := by rw [h] at ht'; cases ht'; rfl
      exact hpend m (Nat.le_of_succ_le_succ hm) w hw
  · rwa [step_inbox h, List.getElem?_tail, hr, hs] at hend

/-- With servable events only, a pending command ends within their number of steps and one more. -/
theorem exists_endsAfter {q : Pending} {s : State} {l : List Event} (hin : s.inbox = l)
    (hl : ∀ e ∈ l, Servable e) (hq : s.pend = some q) : ∃ n ≤ l.length, EndsAfter n q s := by
  induction l generalizing s with
  | nil =>
    obtain hend | ⟨hne, -⟩ := endsAfter_zero_or_keeps hq (step_of_inbox_nil hin)
    · exact ⟨0, le_rfl, hend⟩
    · exact absurd hin hne
  | cons e l ih =>
    rw [List.forall_mem_cons] at hl
    obtain ⟨t, ht⟩ := step_of_servable hin hl.1
    obtain hend | ⟨-, hkeep, hr, hs⟩ := endsAfter_zero_or_keeps hq ht
    · exact ⟨0, Nat.zero_le _, hend⟩
    · obtain ⟨n, hn, hend⟩ := ih (by rw [step_inbox ht, hin, List.tail]) hl.2 hkeep
      exact ⟨n + 1, Nat.succ_le_succ hn, hend.succ hq ht hr hs⟩

/-- Settles O46: both parts by induction on the inbox. -/
theorem everyCommandCompletes : Obligations.EveryCommandCompletes := by
  refine fun s hs => ⟨reaches_idle rfl hs, fun q hq => ?_⟩
  obtain ⟨n, hn, u, v, hend⟩ := exists_endsAfter rfl hs hq
  exact ⟨n, u, v, hn, hend⟩

/-! ### Errors that nothing clears -/

/-- Nothing that waits to reach the unit clears `ERR`. -/
def NothingHides (s : State) : Prop := ∀ e ∈ s.inbox, hidesError e = false

theorem NothingHides.step {s t : State} (hs : NothingHides s) (h : step s = .next t) : NothingHides t := by
  intro e he
  rw [step_inbox h] at he
  exact hs e (List.mem_of_mem_tail he)

/-- `ERR` stays 1 over a step that does not clear it (10_state.md R28). -/
theorem NothingHides.step_err {s t : State} (hs : NothingHides s) (h : Machine.step s = .next t)
    (herr : s.err = true) : t.err = true := by
  obtain hkeep | ⟨hset, -⟩ | ⟨-, ⟨rest, hin⟩ | ⟨v, rest, hin, hv⟩⟩ := step_err_cases h
  · rw [hkeep, herr]
  · exact hset
  · exact absurd (hs (.reset none) (by simp [hin])) (by simp [hidesError])
  · exact absurd (hs (hostWrite 0x08 v) (by simp [hin])) (by simp [hidesError, hostWrite, hv])

/-- Settles O47: an error on the way would still be there at the end. -/
theorem cleanRunRaisedNoError : Obligations.CleanRunRaisedNoError := by
  intro n s t ⟨hrun, hend, hs⟩ m hm u hu
  obtain ⟨k, rfl⟩ := Nat.exists_eq_add_of_le hm
  have hu_hides : NothingHides u := reaches_keeps (fun _ _ hstep h => h.step hstep) hu hs
  by_contra herr
  have hlast : NothingHides t ∧ t.err = true :=
    reaches_keeps (p := fun v => NothingHides v ∧ v.err = true)
      (fun _ _ hstep ⟨h, he⟩ => ⟨h.step hstep, h.step_err hstep he⟩) (reaches_of_reaches_add hu hrun)
      ⟨hu_hides, by simpa using herr⟩
  simp [hend] at hlast

end Sys2Proof.Machine
end

-- The counted functions: their values and their numbers of operations.
section
namespace Sys2Proof.Machine

/-- The counted `f` has the value `v` and makes `m` multiplications and `a` additions, from every tally. -/
def Counts (f : StateM Tally Nat) (v m a : Nat) : Prop :=
  ∀ n : Tally, f n = (v, ⟨n.mulps + m, n.addps + a⟩)

theorem counts_addp (p a b : Nat) : Counts (addpCounted p a b) (addp p a b) 0 1 := fun _ => rfl

theorem counts_mulp (p a b : Nat) : Counts (mulpCounted p a b) (mulp p a b) 1 0 := fun _ => rfl

/-- In sequence, the numbers of operations add up. -/
theorem Counts.bind {f : StateM Tally Nat} {g : Nat → StateM Tally Nat} {v w m a m' a' mulps addps : Nat}
    (hf : Counts f v m a) (hg : Counts (g v) w m' a') (hm : m + m' = mulps) (ha : a + a' = addps) :
    Counts (f >>= g) w mulps addps := by
  subst hm ha
  intro n
  rw [show (f >>= g) n = g (f n).1 (f n).2 from rfl, hf, hg, Nat.add_assoc, Nat.add_assoc]

/-- A fold of steps with the same numbers of operations makes these for each element. -/
theorem counts_foldlM {ι : Type} {f : Nat → ι → StateM Tally Nat} {g : Nat → ι → Nat} {m a : Nat}
    (h : ∀ x i, Counts (f x i) (g x i) m a) (l : List ι) (x : Nat) :
    Counts (l.foldlM f x) (l.foldl g x) (m * l.length) (a * l.length) := by
  induction l generalizing x with
  | nil => exact fun _ => rfl
  | cons i l ih =>
    rw [List.foldlM_cons]
    exact (h x i).bind (ih (g x i)) (by rw [List.length_cons]; ring) (by rw [List.length_cons]; ring)

theorem counts_pow17 (p x : Nat) : Counts (pow17Counted p x) (pow17 p x) 5 0 := fun _ => rfl

theorem counts_mimcRound (c : Build) (x k : Nat) (i : Fin 61) :
    Counts (mimcRoundCounted c x k i) (mimcRound c x k i) 5 2 :=
  (counts_addp c.P x k).bind ((counts_addp c.P _ _).bind (counts_pow17 c.P _) rfl rfl) rfl rfl

/-- 61 rounds of 5 and 2, and the final key addition (42_permutation.md R122). -/
theorem counts_encrypt (c : Build) (k x : Nat) : Counts (encryptCounted c k x) (encrypt c k x) 305 123 :=
  (counts_foldlM (fun acc i => counts_mimcRound c acc k i) (List.finRange 61) x).bind (counts_addp c.P _ k)
    rfl rfl

theorem counts_absorb (c : Build) (s x : Nat) : Counts (absorbCounted c s x) (absorb c s x) 305 125 :=
  (counts_encrypt c s x).bind ((counts_addp c.P _ s).bind (counts_addp c.P _ x) rfl rfl) rfl rfl

/-- Settles O54: each function is the sequence or the fold its counts add up over. -/
theorem operationCountsMatchTable : Obligations.OperationCountsMatchTable := fun c a b n =>
  ⟨counts_addp c.P a b n, counts_mulp c.P a b n, counts_pow17 c.P a n, fun i => counts_mimcRound c a b i n,
    counts_encrypt c a b n, counts_absorb c a b n, fun xs => counts_foldlM (counts_absorb c) xs 0 n⟩

end Sys2Proof.Machine
end
